-- ==== Sys2Proof/Word.lean ====
section
/-! DEFINITION. The word types of the block: bytes, 16-bit command words, 64-bit windows. -/

namespace Sys2Proof

/-- A stored byte of the stream (10_state.md R20). -/
abbrev Byte := BitVec 8

/-- A command word `cmd[15:0]` (30_encoding.md R70). -/
abbrev CmdWord := BitVec 16

/-- A 64-bit window, A-field or CRC block (20_memory.md R53, 41_crc.md R130). -/
abbrev Window := BitVec 64

end Sys2Proof
end

