-- ==== Sys2Proof/Config.lean ====
section
/-! DEFINITION. The protocol constants (00_scope.md R10) and the parameters of an implementation (00_scope.md R11). -/

namespace Sys2Proof

/-- `FP_SYNC`, the Fixed-Part sync pattern (00_scope.md R10, 30_encoding.md R81). -/
def Config.fpSync : BitVec 24 := 0xAAE98A#24

/-- `PP_SYNC`, the Portable-Part sync pattern (00_scope.md R10, 30_encoding.md R81). -/
def Config.ppSync : BitVec 24 := 0x551675#24

/-- `CRC_POLY` (00_scope.md R10, 41_crc.md R130). -/
def Config.crcPoly : BitVec 16 := 0x0589#16

/-- `CRC_XOR` (00_scope.md R10, 41_crc.md R130). -/
def Config.crcXor : BitVec 16 := 0x0001#16

/-- The value of `P_MAX_PEEK` that the 12-bit `arg` fixes (00_scope.md R11, 30_encoding.md R70). -/
def Config.maxPeek : Nat := 4095

/-- The parameters an implementation chooses (00_scope.md R11). They are fixed for a run and are no architectural
state (10_state.md R35); the model takes them as data, so a statement about every state is one about every choice
of them (assumption 3). -/
structure Params where
  /-- `P_TEST_PORT`: whether AVAIL, PEEK, NEXTWIN, ADVANCE and CRC are accepted (30_encoding.md R74). -/
  testPort : Bool
  /-- `P_CAPACITY_BYTES`: the most retained bytes the stream can hold; `none` is ∞ (20_memory.md R64). -/
  capacity : Option Nat
  /-- `P_MAX_PEEK`: the largest count a PEEK or ADVANCE command can carry (assumption 18). -/
  maxPeek : Nat
  deriving DecidableEq, Repr

/-- The values this spec gives the parameters (00_scope.md R11). -/
def Config.params : Params := { testPort := false, capacity := none, maxPeek := Config.maxPeek }

end Sys2Proof
end

