-- ==== Sys2Proof/Syntax.lean ====
section
/-! DEFINITION. The syntax: one constructor of `Instr` per row of spec/opcode_table.json, and the three encoded forms
a row can have (a host command, a sync window, an A-field header byte). -/

namespace Sys2Proof

/-- One transaction on the command interface: the 16-bit command word and the 64-bit data operand, which CRC alone
reads (30_encoding.md R70; assumption 1). -/
structure HostCommand where
  cmd : CmdWord
  din : BitVec 64
  deriving DecidableEq, Repr

/-- The kind of a sync pattern (10_state.md R27). -/
inductive SyncKind where
  | fixed
  | portable
  deriving DecidableEq, Repr

/-- The rows of spec/opcode_table.json: the nine commands, the three rows of reserved selectors, and the ten rows of
data patterns that PARSE selects on in the stream. The data-pattern rows are no host commands: no command word
decodes to one (assumption 5). -/
inductive Instr where
  /-- RESET (43_control.md R190). -/
  | reset
  /-- EXTEND b (40_bit_cursor.md R100). -/
  | extend (b : Byte)
  /-- PARSE (42_frame_decoder.md R150). -/
  | parse
  /-- STATUS (43_control.md R191). -/
  | status
  /-- AVAIL (40_bit_cursor.md R102). -/
  | avail
  /-- PEEK n (40_bit_cursor.md R103). -/
  | peek (n : BitVec 12)
  /-- NEXTWIN (40_bit_cursor.md R104). -/
  | nextwin
  /-- ADVANCE n (40_bit_cursor.md R105). -/
  | advance (n : BitVec 12)
  /-- CRC din (41_crc.md R131). -/
  | crc (din : BitVec 64)
  /-- A word with the reserved selector 0x0 (30_encoding.md R73). -/
  | reservedOp0 (arg : BitVec 12)
  /-- A word with a reserved selector 0xA, 0xB, 0xE or 0xF (30_encoding.md R73). -/
  | reservedOpsABEF (op : BitVec 4) (arg : BitVec 12)
  /-- A word with a reserved selector 0xC or 0xD; the words 0xE and 0xF, which this row matches too, are read as
  the row above (30_encoding.md R73; assumption 6). -/
  | reservedOpsCDEF (op : BitVec 4) (arg : BitVec 12)
  /-- A Fixed-Part sync window with these 40 lead bits (42_frame_decoder.md R152). -/
  | fpSync (lead : BitVec 40)
  /-- A Portable-Part sync window with these 40 lead bits (42_frame_decoder.md R152). -/
  | ppSync (lead : BitVec 40)
  /-- A header byte of payload-size class 0b000 (30_encoding.md R84). -/
  | sizeClass000 (tailId : BitVec 3) (q1 q2 : BitVec 1)
  /-- A header byte of payload-size class 0b001 (30_encoding.md R84). -/
  | sizeClass001 (tailId : BitVec 3) (q1 q2 : BitVec 1)
  /-- A header byte of payload-size class 0b010, `DoubleSlotRequired` (30_encoding.md R84). -/
  | sizeClass010 (tailId : BitVec 3) (q1 q2 : BitVec 1)
  /-- A header byte of payload-size class 0b011 (30_encoding.md R84). -/
  | sizeClass011 (tailId : BitVec 3) (q1 q2 : BitVec 1)
  /-- A header byte of payload-size class 0b100, `HalfSlotRequired` (30_encoding.md R84). -/
  | sizeClass100 (tailId : BitVec 3) (q1 q2 : BitVec 1)
  /-- A header byte of payload-size class 0b101 (30_encoding.md R84). -/
  | sizeClass101 (tailId : BitVec 3) (q1 q2 : BitVec 1)
  /-- A header byte of payload-size class 0b110 (30_encoding.md R84). -/
  | sizeClass110 (tailId : BitVec 3) (q1 q2 : BitVec 1)
  /-- A header byte of payload-size class 0b111, `NoSlotRequired` (30_encoding.md R84). -/
  | sizeClass111 (tailId : BitVec 3) (q1 q2 : BitVec 1)
  deriving DecidableEq, Repr

/-- The three encoded forms of the table's rows: CMD16 (with `din`), SYNCWIN64 and AHDR8. -/
inductive Encoded where
  | command (c : HostCommand)
  | window (w : Window)
  | header (h : Byte)
  deriving DecidableEq, Repr

/-- Why the decoder reads no row in an encoded form. -/
inductive DecodeError where
  /-- A command word with a non-zero must-be-zero bit (30_encoding.md R72); the step raises IllegalCommand for it. -/
  | mustBeZero
  /-- A window whose low 24 bits are neither sync pattern (42_frame_decoder.md R152); the scan moves on one bit. -/
  | noSyncPattern
  deriving DecidableEq, Repr

end Sys2Proof
end

