-- ==== Sys2Proof/WellFormed.lean ====
section
/-! DEFINITION. Which terms of `Instr` are rows of the table: only the two reserved rows whose selector is an operand
have a term that is none. -/

namespace Sys2Proof

/-- Whether the term is an instance of its row, in the row's own selectors (30_encoding.md R73; for the overlap of the
last two reserved rows see assumption 6). Every other operand has exactly its field's width, so every value is legal. -/
def Instr.wellFormed (i : Instr) : Bool :=
  match i with
  | .reservedOpsABEF op _ => op == 0xA#4 || op == 0xB#4 || op == 0xE#4 || op == 0xF#4
  | .reservedOpsCDEF op _ => op == 0xC#4 || op == 0xD#4
  | .reset | .extend _ | .parse | .status | .avail | .peek _ | .nextwin | .advance _ | .crc _ | .reservedOp0 _
  | .fpSync _ | .ppSync _
  | .sizeClass000 _ _ _ | .sizeClass001 _ _ _ | .sizeClass010 _ _ _ | .sizeClass011 _ _ _
  | .sizeClass100 _ _ _ | .sizeClass101 _ _ _ | .sizeClass110 _ _ _ | .sizeClass111 _ _ _ => true

end Sys2Proof
end

