-- ==== Sys2Proof/Decode.lean ====
section
/-! DEFINITION. The decoders of the three encoded forms, the table's rows, and the encoder. -/

namespace Sys2Proof

/-! ## Host commands (30_encoding.md R70–R73) -/

/-- `op = cmd[15:12]` (30_encoding.md R70). -/
def opField (cmd : CmdWord) : BitVec 4 := cmd.extractLsb' 12 4

/-- `arg = cmd[11:0]` (30_encoding.md R70). -/
def argField (cmd : CmdWord) : BitVec 12 := cmd.extractLsb' 0 12

/-- The command `i`, whose `arg` must be zero (30_encoding.md R72). -/
def withZeroArg (arg : BitVec 12) (i : Instr) : Except DecodeError Instr :=
  if arg = 0#12 then .ok i else .error .mustBeZero

/-- EXTEND: `arg[11:8]` must be zero and `arg[7:0]` is the byte (30_encoding.md R71, R72). -/
def decodeExtend (arg : BitVec 12) : Except DecodeError Instr :=
  if arg.extractLsb' 8 4 = 0#4 then .ok (.extend (arg.extractLsb' 0 8)) else .error .mustBeZero

/-- The command selector map (30_encoding.md R71), its sixteen selectors bit by bit from `op[3]` to `op[0]`. -/
def decodeCommand (c : HostCommand) : Except DecodeError Instr :=
  let op := opField c.cmd
  let arg := argField c.cmd
  match op[3], op[2], op[1], op[0] with
  | false, false, false, false => .ok (.reservedOp0 arg)
  | false, false, false, true => withZeroArg arg .reset
  | false, false, true, false => decodeExtend arg
  | false, false, true, true => withZeroArg arg .parse
  | false, true, false, false => withZeroArg arg .status
  | false, true, false, true => withZeroArg arg .avail
  | false, true, true, false => .ok (.peek arg)
  | false, true, true, true => withZeroArg arg .nextwin
  | true, false, false, false => .ok (.advance arg)
  | true, false, false, true => withZeroArg arg (.crc c.din)
  | true, false, true, false => .ok (.reservedOpsABEF op arg)
  | true, false, true, true => .ok (.reservedOpsABEF op arg)
  | true, true, false, false => .ok (.reservedOpsCDEF op arg)
  | true, true, false, true => .ok (.reservedOpsCDEF op arg)
  | true, true, true, false => .ok (.reservedOpsABEF op arg)
  | true, true, true, true => .ok (.reservedOpsABEF op arg)

/-! ## Sync windows (30_encoding.md R80, R81) -/

/-- Sync classification: the low 24 bits against the two patterns, Fixed first (42_frame_decoder.md R152). -/
def classifySync (w : Window) : Option SyncKind :=
  if w.extractLsb' 0 24 = Config.fpSync then some .fixed
  else if w.extractLsb' 0 24 = Config.ppSync then some .portable
  else none

/-- The table row a 64-bit window matches: its kind and its 40 lead bits `w[63:24]` (30_encoding.md R80). -/
def decodeWindow (w : Window) : Except DecodeError Instr :=
  match classifySync w with
  | some .fixed => .ok (.fpSync (w.extractLsb' 24 40))
  | some .portable => .ok (.ppSync (w.extractLsb' 24 40))
  | none => .error .noSyncPattern

/-! ## Header bytes (30_encoding.md R83, R84) -/

/-- The table row a header byte matches: `tail_id = h[7:5]`, `q1 = h[4]`, `size_class = h[3:1]`, `q2 = h[0]`
(30_encoding.md R83); every header byte is legal. -/
def decodeHeader (h : Byte) : Instr :=
  let tailId := h.extractLsb' 5 3
  let q1 := h.extractLsb' 4 1
  let q2 := h.extractLsb' 0 1
  match h[3], h[2], h[1] with
  | false, false, false => .sizeClass000 tailId q1 q2
  | false, false, true => .sizeClass001 tailId q1 q2
  | false, true, false => .sizeClass010 tailId q1 q2
  | false, true, true => .sizeClass011 tailId q1 q2
  | true, false, false => .sizeClass100 tailId q1 q2
  | true, false, true => .sizeClass101 tailId q1 q2
  | true, true, false => .sizeClass110 tailId q1 q2
  | true, true, true => .sizeClass111 tailId q1 q2

/-- The decoder, total on each of the three forms. -/
def decode (e : Encoded) : Except DecodeError Instr :=
  match e with
  | .command c => decodeCommand c
  | .window w => decodeWindow w
  | .header h => .ok (decodeHeader h)

/-! ## The encoder -/

/-- `cmd = (op << 12) OR arg` (30_encoding.md R79); a command but CRC has no data operand, and its `din` lines carry
zero here (assumption 1). -/
def commandOf (op : BitVec 4) (arg : BitVec 12) (din : BitVec 64 := 0#64) : Encoded :=
  .command { cmd := op ++ arg, din := din }

/-- The header byte `tail_id ++ q1 ++ size_class ++ q2` (30_encoding.md R83). -/
def headerByte (tailId : BitVec 3) (q1 : BitVec 1) (sizeClass : BitVec 3) (q2 : BitVec 1) : Byte :=
  tailId ++ q1 ++ sizeClass ++ q2

/-- The encoded form of an instruction (30_encoding.md R71, R80, R83). -/
def encode (i : Instr) : Encoded :=
  match i with
  | .reset => commandOf 0x1#4 0#12
  | .extend b => commandOf 0x2#4 (0#4 ++ b)
  | .parse => commandOf 0x3#4 0#12
  | .status => commandOf 0x4#4 0#12
  | .avail => commandOf 0x5#4 0#12
  | .peek n => commandOf 0x6#4 n
  | .nextwin => commandOf 0x7#4 0#12
  | .advance n => commandOf 0x8#4 n
  | .crc din => commandOf 0x9#4 0#12 din
  | .reservedOp0 arg => commandOf 0x0#4 arg
  | .reservedOpsABEF op arg => commandOf op arg
  | .reservedOpsCDEF op arg => commandOf op arg
  | .fpSync lead => .window (lead ++ Config.fpSync)
  | .ppSync lead => .window (lead ++ Config.ppSync)
  | .sizeClass000 t q1 q2 => .header (headerByte t q1 0b000#3 q2)
  | .sizeClass001 t q1 q2 => .header (headerByte t q1 0b001#3 q2)
  | .sizeClass010 t q1 q2 => .header (headerByte t q1 0b010#3 q2)
  | .sizeClass011 t q1 q2 => .header (headerByte t q1 0b011#3 q2)
  | .sizeClass100 t q1 q2 => .header (headerByte t q1 0b100#3 q2)
  | .sizeClass101 t q1 q2 => .header (headerByte t q1 0b101#3 q2)
  | .sizeClass110 t q1 q2 => .header (headerByte t q1 0b110#3 q2)
  | .sizeClass111 t q1 q2 => .header (headerByte t q1 0b111#3 q2)

/-- The command word and data operand of a host command; a data pattern has none. -/
def encodeCommand (i : Instr) : Option HostCommand :=
  match encode i with
  | .command c => some c
  | .window _ => none
  | .header _ => none

/-! ## The table's numbering -/

/-- The bits of an encoded form as spec/opcode_table.json numbers them: the first word from bit 0, `din` above the
command word. -/
def Encoded.bits (e : Encoded) : Nat :=
  match e with
  | .command c => c.cmd.toNat + c.din.toNat <<< 16
  | .window w => w.toNat
  | .header h => h.toNat

/-- The encoded form of `nbits` bits numbered as the table numbers them: up to 8 bits a header byte (AHDR8), up to 16
or more than 64 a command (CMD16, with `din` above bit 15), otherwise a sync window (SYNCWIN64). -/
def Encoded.ofTable (nbits w : Nat) : Encoded :=
  if nbits ≤ 8 then .header (BitVec.ofNat 8 w)
  else if nbits ≤ 16 then .command { cmd := BitVec.ofNat 16 w, din := 0#64 }
  else if nbits ≤ 64 then .window (BitVec.ofNat 64 w)
  else .command { cmd := BitVec.ofNat 16 w, din := BitVec.ofNat 64 (w >>> 16) }

/-- The instruction the decoder reads from a table row's bits. -/
def decodeTableWord (nbits w : Nat) : Option Instr :=
  match decode (Encoded.ofTable nbits w) with
  | .ok i => some i
  | .error _ => none

/-- `(mask, match)` of an instruction's row, as spec/opcode_table.json gives them. -/
def tableRow (i : Instr) : Nat × Nat :=
  match i with
  | .reset => (0xFFFF, 0x1000)
  | .extend _ => (0xFF00, 0x2000)
  | .parse => (0xFFFF, 0x3000)
  | .status => (0xFFFF, 0x4000)
  | .avail => (0xFFFF, 0x5000)
  | .peek _ => (0xF000, 0x6000)
  | .nextwin => (0xFFFF, 0x7000)
  | .advance _ => (0xF000, 0x8000)
  | .crc _ => (0xFFFF, 0x9000)
  | .reservedOp0 _ => (0xF000, 0x0000)
  | .reservedOpsABEF _ _ => (0xA000, 0xA000)
  | .reservedOpsCDEF _ _ => (0xC000, 0xC000)
  | .fpSync _ => (0xFFFFFF, 0xAAE98A)
  | .ppSync _ => (0xFFFFFF, 0x551675)
  | .sizeClass000 _ _ _ => (0x0E, 0x00)
  | .sizeClass001 _ _ _ => (0x0E, 0x02)
  | .sizeClass010 _ _ _ => (0x0E, 0x04)
  | .sizeClass011 _ _ _ => (0x0E, 0x06)
  | .sizeClass100 _ _ _ => (0x0E, 0x08)
  | .sizeClass101 _ _ _ => (0x0E, 0x0A)
  | .sizeClass110 _ _ _ => (0x0E, 0x0C)
  | .sizeClass111 _ _ _ => (0x0E, 0x0E)

end Sys2Proof
end

