-- ==== Sys2Proof/Machine/State.lean ====
section
/-! DEFINITION. The state of one block, its responses, and the reasons a step of the model can stop. Plain data. -/

namespace Sys2Proof.Machine

/-! ## Records (10_state.md R27–R31) -/

/-- A SyncWord (10_state.md R27): the kind of the pattern and the whole window it was found in. -/
structure SyncWord where
  kind : SyncKind
  raw : Window
  deriving DecidableEq, Repr

/-- A MACHeader (10_state.md R30), its fields held raw. -/
structure MACHeader where
  tailId : BitVec 3
  q1 : BitVec 1
  sizeClass : BitVec 3
  q2 : BitVec 1
  deriving DecidableEq, Repr

/-- The five tail bytes in stream order, `b0` the first received (10_state.md R28). -/
structure Tail where
  b0 : Byte
  b1 : Byte
  b2 : Byte
  b3 : Byte
  b4 : Byte
  deriving DecidableEq, Repr

/-- A MACPacket (10_state.md R31); the payload's bits are in stream order, the first bit of the B-field first. -/
structure MACPacket where
  header : MACHeader
  tail : Tail
  payload : Option (List Bool)
  deriving DecidableEq, Repr

/-- The frame-assembly state (10_state.md R24, R26–R28). A variant left holds none of its fields (R29). -/
inductive DecoderState where
  | newMessage
  | aField (sync : SyncWord)
  | bField (header : MACHeader) (tail : Tail) (length : BitVec 7)
  deriving DecidableEq, Repr

/-- The fault codes of 60_exceptions.md R201. -/
inductive FaultCode where
  /-- Code 1: a word that is no accepted command. -/
  | illegalCommand
  /-- Code 2: an ADVANCE past the stored data. -/
  | cursorOverrun
  /-- Code 3: an EXTEND past a finite capacity. -/
  | bufferOverflow
  deriving DecidableEq, Repr

/-! ## Responses (30_encoding.md R75–R77, 43_control.md R191) -/

/-- The result of a PARSE (30_encoding.md R77). -/
inductive ParseCode where
  | moreData
  | partialResult
  | full
  deriving DecidableEq, Repr

/-- The PARSE response (30_encoding.md R77). -/
structure ParseResult where
  code : ParseCode
  crcError : Bool
  packet : Option MACPacket
  deriving DecidableEq, Repr

/-- The fields STATUS reports: those of the active variant only (43_control.md R191). -/
inductive StatusFields where
  | none
  | aField (kind : BitVec 1) (raw : BitVec 64)
  | bField (header : BitVec 8) (tail : BitVec 40) (length : BitVec 7)
  deriving DecidableEq, Repr

/-- The STATUS response (43_control.md R191). -/
structure Status where
  tag : BitVec 2
  cur : Nat
  storedBits : Nat
  fault : Option FaultCode
  fields : StatusFields
  deriving DecidableEq, Repr

/-- The responses of 30_encoding.md R75; `faulted` is that of a command that faults and of every command after it
(60_exceptions.md R202). -/
inductive Response where
  | ok
  | parsed (r : ParseResult)
  | status (st : Status)
  | count (a : Nat)
  | bits (s : List Bool)
  | insufficient
  | window (w : Window)
  | crc (value : BitVec 16) (valid : Bool)
  | faulted (code : FaultCode)
  deriving DecidableEq, Repr

/-! ## The state -/

/-- The stored bytes of the stream (10_state.md R20). A byte's address is its place in the list, so the list is its own
canonical form: the addresses are 0 … n − 1, and an address past them holds no value (assumption 4). -/
abbrev Memory := List Byte

/-- The state of one block: the record S of 10_state.md (`buf`, `cur`, `dstate`, `fault`), the parameters fixed for the
run (assumption 3), and the two ends of the command interface (assumptions 1 and 2). -/
structure State where
  /-- `S.buf` (10_state.md R20). -/
  buf : Memory
  /-- `S.cur`, the stream position of the next unread bit (10_state.md R21). -/
  cur : Nat
  /-- `S.dstate` (10_state.md R24). -/
  dstate : DecoderState
  /-- `S.fault` (10_state.md R32). -/
  fault : Option FaultCode
  /-- The parameters of 00_scope.md R11; no step writes them. -/
  params : Params
  /-- The commands the host has still to issue, the next one first (60_exceptions.md R214). -/
  port : List HostCommand
  /-- The responses returned so far, oldest first (30_encoding.md R75). -/
  responses : List Response
  deriving DecidableEq, Repr

/-- Why the model stops with a fault. Both are the model's own guards on the internal stream operations, and safe: the
rules never apply an operation outside its guard, and no step does (42_frame_decoder.md R166). The faults of
60_exceptions.md R201 are no such stop: raising one is a next state. -/
inductive Fault where
  /-- A `MemRead` outside its domain (20_memory.md R52). Raised by the internal `Peek` and `Window`; safe. -/
  | memReadOutsideStream
  /-- An internal `Advance(n)` outside its guard `available_bits ≥ n` (40_bit_cursor.md R106). Raised by the frame
  decoder's moves when they are applied to a state PARSE would not apply them to; safe. -/
  | advancePastStream
  deriving DecidableEq, Repr

/-- Why the model refuses an instruction. -/
inductive Refusal where
  /-- The instruction has no meaning in this model yet. Raised by an arm of `exec` only; safe. No arm raises it. -/
  | notModelled (mnemonic : String)
  deriving DecidableEq, Repr

/-- The outcome of a command or a step. -/
abbrev Result := Host.Outcome State Fault Refusal

/-- The state right after reset (10_state.md R35, 70_reset_and_hazards.md R230), with the parameters at the values of
00_scope.md R11, no command waiting and no response given (assumptions 1 and 2). -/
def State.reset : State :=
  { buf := [], cur := 0, dstate := .newMessage, fault := none, params := Config.params, port := [], responses := [] }

end Sys2Proof.Machine
end

