-- ==== Sys2Proof/Machine/Ops.lean ====
section
/-! DEFINITION. The named operations: writing a field, responding, raising a fault (the block's one exception entry), the
command prologue, reading the stream, and moving the cursor. The block has no return from a fault (60_exceptions.md R203). -/

namespace Sys2Proof.Machine

/-! ## Writing one field -/

def State.setBuf (b : Memory) (s : State) : State := { s with buf := b }
def State.setCur (c : Nat) (s : State) : State := { s with cur := c }
def State.setDstate (d : DecoderState) (s : State) : State := { s with dstate := d }
def State.setFault (c : FaultCode) (s : State) : State := { s with fault := some c }
def State.setPort (p : List HostCommand) (s : State) : State := { s with port := p }
/-- The response `r` is returned to the host (30_encoding.md R75). -/
def State.answer (r : Response) (s : State) : State := { s with responses := s.responses ++ [r] }

/-! ## Responding and faulting (00_scope.md R14, 60_exceptions.md R202) -/

/-- `respond(r)`: the command ends with response `r`. -/
def respond (r : Response) (s : State) : Result := .next (s.answer r)

/-- `raise Fault(code)`: records the code, the only state written, and answers `Faulted(code)` (60_exceptions.md R202). -/
def raiseFault (c : FaultCode) (s : State) : Result := respond (.faulted c) (s.setFault c)

/-- The command prologue for an accepted encoding (60_exceptions.md R202): a faulted block answers `Faulted` and does
nothing else. -/
def prologue (s : State) (body : State → Result) : Result :=
  match s.fault with
  | some c => respond (.faulted c) s
  | none => body s

/-- The prologue of a test-port command: with `P_TEST_PORT = false` it is an illegal command (30_encoding.md R73, R74). -/
def testPortPrologue (s : State) (body : State → Result) : Result :=
  prologue s fun s => if s.params.testPort then body s else raiseFault .illegalCommand s

/-- The prologue of a word that is no command: IllegalCommand before any effect (30_encoding.md R73). -/
def rejectCommand (s : State) : Result := prologue s (raiseFault .illegalCommand)

/-- Runs `k` from the next state of `r`, stopping where `r` stops. -/
def andThen (r : Result) (k : State → Result) : Result :=
  match r with
  | .next s => k s
  | .fault f => .fault f
  | .refused f => .refused f

/-! ## The stream memory (20_memory.md) -/

/-- A memory as (address, byte) cells. -/
def Memory.cells (m : Memory) : List Host.Cell := m.zipIdx.map fun (b, a) => (a, b)

/-- The canonical form of a list of cells: the addresses are 0, 1, 2, …, so they rise strictly, and every listed
address holds a byte, where an unlisted one holds none. -/
abbrev Memory.wf (cells : List Host.Cell) : Prop := cells.map Prod.fst = List.range cells.length

/-- `8 × |buf|`, the number of stored bits (10_state.md R20). -/
def storedBits (m : Memory) : Nat := 8 * m.length

/-- The byte at an address; an address past the stored bytes holds none (20_memory.md R50). -/
def readByte (m : Memory) (a : Nat) : Option Byte := m[a]?

/-- The address `Append` stores to: the end of the stream (20_memory.md R56). -/
def appendAddress (m : Memory) : Nat := m.length

/-- `Append(b)`, the only write to the stream (20_memory.md R56). -/
def appendByte (b : Byte) (m : Memory) : Memory := m ++ [b]

/-- `StreamBit(k)`: bit `k mod 8` of byte `k div 8`, the most significant first (20_memory.md R51). -/
def streamBit (m : Memory) (k : Nat) : Option Bool := (readByte m (k / 8)).map fun b => b.getMsbD (k % 8)

/-- `MemRead(pos, n)`: the `n` stream bits from `pos` on, none outside its domain `pos + n ≤ 8 × |buf|`
(20_memory.md R52). -/
def memRead (m : Memory) (pos n : Nat) : Option (List Bool) :=
  match n with
  | 0 => if pos ≤ storedBits m then some [] else none
  | n + 1 =>
    match streamBit m pos, memRead m (pos + 1) n with
    | some b, some bs => some (b :: bs)
    | _, _ => none

/-- `uint(s)`: the number a bit sequence spells, its first bit the most significant (00_scope.md R14). -/
def uint (bits : List Bool) : Nat := bits.foldl (fun acc b => 2 * acc + b.toNat) 0

/-- `Window(pos) = uint(MemRead(pos, 64))` (20_memory.md R53). -/
def windowAt (m : Memory) (pos : Nat) : Option Window := (memRead m pos 64).map fun bits => BitVec.ofNat 64 (uint bits)

/-- Byte `j` of a window, byte 0 the first received: `w[63−8j : 56−8j]` (20_memory.md R54). -/
def windowByte (w : Window) (j : Nat) : Byte := w.extractLsb' (56 - 8 * j) 8

/-! ## The cursor (10_state.md R23, 40_bit_cursor.md R106) -/

/-- `available_bits(S) = 8 × |S.buf| − S.cur` (10_state.md R23). -/
def available (s : State) : Nat := storedBits s.buf - s.cur

/-- The retained byte count `|S.buf| − (S.cur div 8)` (20_memory.md R64). -/
def retained (s : State) : Nat := s.buf.length - s.cur / 8

/-- Whether one more byte would raise the retained count above a finite `P_CAPACITY_BYTES` (20_memory.md R64,
40_bit_cursor.md R100). -/
def overflows (s : State) : Bool :=
  match s.params.capacity with
  | none => false
  | some c => decide (c < s.buf.length + 1 - s.cur / 8)

/-- `Peek(n)`, the internal one: the next `n` bits, the cursor unmoved (40_bit_cursor.md R106). -/
def peekThen (n : Nat) (s : State) (k : List Bool → Result) : Result :=
  match memRead s.buf s.cur n with
  | some bits => k bits
  | none => .fault .memReadOutsideStream

/-- `Window()`, the internal one: the window at the cursor, the cursor unmoved (40_bit_cursor.md R106). -/
def windowThen (s : State) (k : Window → Result) : Result :=
  match windowAt s.buf s.cur with
  | some w => k w
  | none => .fault .memReadOutsideStream

/-- `Advance(n)`, the internal one, under its guard `available_bits ≥ n` (40_bit_cursor.md R106). -/
def advanceThen (n : Nat) (s : State) (k : State → Result) : Result :=
  if available s < n then .fault .advancePastStream else k (s.setCur (s.cur + n))

end Sys2Proof.Machine
end

