-- ==== Sys2Proof/Machine/Operands.lean ====
section
/-! DEFINITION. The operand forms: the counts of PEEK and ADVANCE, and the fields of an A-field, a header and a packet. -/

namespace Sys2Proof.Machine

/-- `n = zext(arg)`, the count of PEEK and ADVANCE (30_encoding.md R70). -/
def countOf (arg : BitVec 12) : Nat := arg.toNat

/-- Whether a command word is one that can be carried under these parameters: the count of a PEEK or ADVANCE is at most
`P_MAX_PEEK` (00_scope.md R11, 20_memory.md R57). It is a bound on what the host issues: for every count of the 12-bit
`arg` the block does what R103 and R105 of 40_bit_cursor.md say (assumption 18). -/
def carries (p : Params) (c : HostCommand) : Bool :=
  if opField c.cmd = 0x6#4 ∨ opField c.cmd = 0x8#4 then decide (countOf (argField c.cmd) ≤ p.maxPeek) else true

/-! ## The A-field (30_encoding.md R82) -/

/-- The 16 check bits `a[63:48]`. -/
def seedOf (a : Window) : BitVec 16 := a.extractLsb' 48 16

/-- The header byte `a[7:0]`, byte 7 of the window. -/
def headerByteOf (a : Window) : Byte := a.extractLsb' 0 8

/-- The five tail bytes `a[47:40] … a[15:8]`, bytes 2 to 6 of the window (42_frame_decoder.md R160). -/
def tailOf (a : Window) : Tail :=
  { b0 := windowByte a 2, b1 := windowByte a 3, b2 := windowByte a 4, b3 := windowByte a 5, b4 := windowByte a 6 }

/-! ## The header (30_encoding.md R83) -/

/-- The header fields of a header byte: `tail_id = h[7:5]`, `q1 = h[4]`, `size_class = h[3:1]`, `q2 = h[0]`. -/
def headerOfByte (h : Byte) : MACHeader :=
  { tailId := h.extractLsb' 5 3, q1 := h.extractLsb' 4 1, sizeClass := h.extractLsb' 1 3, q2 := h.extractLsb' 0 1 }

/-- The header of an A-field (42_frame_decoder.md R158). -/
def headerOf (a : Window) : MACHeader := headerOfByte (headerByteOf a)

/-- The header byte that was received: `tail_id ++ q1 ++ size_class ++ q2` (30_encoding.md R78). -/
def byteOfHeader (h : MACHeader) : Byte := headerByte h.tailId h.q1 h.sizeClass h.q2

/-- The tail as 40 bits, `tail[39:32]` the first byte (30_encoding.md R78). -/
def tailBits (t : Tail) : BitVec 40 := t.b0 ++ t.b1 ++ t.b2 ++ t.b3 ++ t.b4

/-- `B_LEN(size_class)`, the B-field length in bits: the table of 30_encoding.md R84, by an exhaustive match over the
eight classes (R86). -/
def bLen (cls : BitVec 3) : BitVec 7 :=
  match cls[2], cls[1], cls[0] with
  | false, false, false => 40#7
  | false, false, true => 40#7
  | false, true, false => 100#7
  | false, true, true => 40#7
  | true, false, false => 10#7
  | true, false, true => 40#7
  | true, true, false => 40#7
  | true, true, true => 0#7

/-! ## The packet record (30_encoding.md R78) -/

/-- The packet as `ParseResult.packet` lays it out (30_encoding.md R78). `payload` is the value of `payloadLen` bits the
payload spells, its first bit the most significant. -/
structure PacketRecord where
  tailId : BitVec 3
  q1 : BitVec 1
  sizeClass : BitVec 3
  q2 : BitVec 1
  tail : BitVec 40
  payloadPresent : BitVec 1
  payloadLen : BitVec 7
  payload : Nat
  deriving DecidableEq, Repr

/-- The record of a packet (30_encoding.md R78). -/
def packetRecord (p : MACPacket) : PacketRecord :=
  { tailId := p.header.tailId
    q1 := p.header.q1
    sizeClass := p.header.sizeClass
    q2 := p.header.q2
    tail := tailBits p.tail
    payloadPresent := match p.payload with
      | none => 0#1
      | some _ => 1#1
    payloadLen := match p.payload with
      | none => 0#7
      | some bits => BitVec.ofNat 7 bits.length
    payload := match p.payload with
      | none => 0
      | some bits => uint bits }

end Sys2Proof.Machine
end

