-- ==== Sys2Proof/Machine/Flags.lean ====
section
/-! DEFINITION. The response fields that stand for flags (30_encoding.md R77), and the codes STATUS and the responses use.
The block has no condition codes (10_state.md R33). -/

namespace Sys2Proof.Machine

/-- `PR(MoreData)` (30_encoding.md R77). -/
def prMoreData : Response := .parsed { code := .moreData, crcError := false, packet := none }

/-- `PR(Partial)` (30_encoding.md R77). -/
def prPartial : Response := .parsed { code := .partialResult, crcError := false, packet := none }

/-- `PR(Partial, crc_error = 1)`: a candidate frame was dropped (30_encoding.md R77, 42_frame_decoder.md R157). -/
def prCrcError : Response := .parsed { code := .partialResult, crcError := true, packet := none }

/-- `PR(Full, packet)` (30_encoding.md R77). -/
def prFull (p : MACPacket) : Response := .parsed { code := .full, crcError := false, packet := some p }

/-- The two code bits of a ParseResult (30_encoding.md R77). -/
def parseCodeBits (c : ParseCode) : BitVec 2 :=
  match c with
  | .moreData => 0b00#2
  | .partialResult => 0b01#2
  | .full => 0b10#2

/-- The two tag bits of the frame-assembly state (10_state.md R25). -/
def stateTag (d : DecoderState) : BitVec 2 :=
  match d with
  | .newMessage => 0b00#2
  | .aField _ => 0b01#2
  | .bField _ _ _ => 0b10#2

/-- The kind bit of a SyncWord: Fixed 0, Portable 1 (10_state.md R27). -/
def syncKindBit (k : SyncKind) : BitVec 1 :=
  match k with
  | .fixed => 0#1
  | .portable => 1#1

/-- The number of a fault code; 0 is no fault (60_exceptions.md R201). -/
def faultNumber (f : Option FaultCode) : Nat :=
  match f with
  | none => 0
  | some .illegalCommand => 1
  | some .cursorOverrun => 2
  | some .bufferOverflow => 3

/-- The fields of the active variant, as STATUS reports them (43_control.md R191). -/
def statusFields (d : DecoderState) : StatusFields :=
  match d with
  | .newMessage => .none
  | .aField sync => .aField (syncKindBit sync.kind) sync.raw
  | .bField header tail length => .bField (byteOfHeader header) (tailBits tail) length

/-- The Status record of a state (43_control.md R191); its `fault` is always none, for a faulted block answers
`Faulted`. -/
def statusOf (s : State) : Status :=
  { tag := stateTag s.dstate, cur := s.cur, storedBits := storedBits s.buf, fault := none, fields := statusFields s.dstate }

/-- What a PARSE response shows of the frames: a packet, or a dropped candidate (30_encoding.md R77,
70_reset_and_hazards.md R233). -/
inductive FrameEvent where
  | packet (p : MACPacket)
  | crcError
  deriving DecidableEq, Repr

/-- The event a response carries, if any. -/
def frameEvent (r : Response) : Option FrameEvent :=
  match r with
  | .parsed p =>
    match p.packet with
    | some q => some (.packet q)
    | none => if p.crcError then some .crcError else none
  | _ => none

/-- Whether a response is a PARSE result with `code = MoreData`. -/
def isMoreData (r : Response) : Bool :=
  match r with
  | .parsed p => p.code == .moreData
  | _ => false

end Sys2Proof.Machine
end

