-- ==== Sys2Proof/Machine/BitCursor.lean ====
section
/-! DEFINITION. The bit-cursor commands: EXTEND, AVAIL, PEEK, NEXTWIN, ADVANCE (40_bit_cursor.md). -/

namespace Sys2Proof.Machine

/-- EXTEND b (40_bit_cursor.md R100). -/
def execExtend (b : Byte) (s : State) : Result :=
  prologue s fun s =>
    if overflows s then raiseFault .bufferOverflow s
    else respond .ok (s.setBuf (appendByte b s.buf))

/-- AVAIL (40_bit_cursor.md R102). -/
def execAvail (s : State) : Result :=
  testPortPrologue s fun s => respond (.count (available s)) s

/-- PEEK n (40_bit_cursor.md R103). -/
def execPeek (n : BitVec 12) (s : State) : Result :=
  testPortPrologue s fun s =>
    if available s < countOf n then respond .insufficient s
    else peekThen (countOf n) s fun bits => respond (.bits bits) s

/-- NEXTWIN (40_bit_cursor.md R104). -/
def execNextwin (s : State) : Result :=
  testPortPrologue s fun s =>
    if available s < 64 then respond .insufficient s
    else windowThen s fun w => respond (.window w) (s.setCur (s.cur + 1))

/-- ADVANCE n (40_bit_cursor.md R105). -/
def execAdvance (n : BitVec 12) (s : State) : Result :=
  testPortPrologue s fun s =>
    if available s < countOf n then raiseFault .cursorOverrun s
    else respond .ok (s.setCur (s.cur + countOf n))

end Sys2Proof.Machine
end

