-- ==== Sys2Proof/Machine/Control.lean ====
section
/-! DEFINITION. The control commands RESET and STATUS (43_control.md), and the words that are no command
(30_encoding.md R73). -/

namespace Sys2Proof.Machine

/-- RESET (43_control.md R190); the fault field is none here, for a faulted block answers in the prologue. -/
def execReset (s : State) : Result :=
  prologue s fun s => respond .ok (((s.setBuf []).setCur 0).setDstate .newMessage)

/-- STATUS (43_control.md R191). -/
def execStatus (s : State) : Result :=
  prologue s fun s => respond (.status (statusOf s)) s

/-- A word with the reserved selector 0x0 (30_encoding.md R73). -/
def execReservedOp0 (_arg : BitVec 12) (s : State) : Result := rejectCommand s

/-- A word with a reserved selector 0xA, 0xB, 0xE or 0xF (30_encoding.md R73). -/
def execReservedOpsABEF (_op : BitVec 4) (_arg : BitVec 12) (s : State) : Result := rejectCommand s

/-- A word with a reserved selector 0xC or 0xD (30_encoding.md R73). -/
def execReservedOpsCDEF (_op : BitVec 4) (_arg : BitVec 12) (s : State) : Result := rejectCommand s

end Sys2Proof.Machine
end

