-- ==== Sys2Proof/Machine/Crc.lean ====
section
/-! DEFINITION. The CRC engine (41_crc.md R130) and the CRC command (R131). -/

namespace Sys2Proof.Machine

/-- One bit step: shift left, take the bit in, and XOR the polynomial when the bit shifted out was 1
(41_crc.md R130; the top bit is read before the shift). -/
def crcStep (r : BitVec 16) (bit : Bool) : BitVec 16 :=
  let shifted := (r <<< 1) ||| (BitVec.ofBool bit).setWidth 16
  if r.msb then shifted ^^^ Config.crcPoly else shifted

/-- The steps for the bits `blk[k−1]` down to `blk[0]` (41_crc.md R130). -/
def crcSteps (blk : BitVec 64) (r : BitVec 16) (k : Nat) : BitVec 16 :=
  match k with
  | 0 => r
  | k + 1 => crcSteps blk (crcStep r (blk.getLsbD k)) k

/-- `CRC16(blk)`: the register starts at `blk[63:48]`, takes in bits 47 to 0, and is XORed with `CRC_XOR`
(41_crc.md R130). -/
def crc16 (blk : BitVec 64) : BitVec 16 := crcSteps blk (blk.extractLsb' 48 16) 48 ^^^ Config.crcXor

/-- A block is valid when its CRC is 0 (41_crc.md R132). -/
def crcValid (blk : BitVec 64) : Bool := crc16 blk == 0x0000#16

/-- One bit step undone: the polynomial's constant term is 1, so the step is invertible (41_crc.md R134). -/
def crcUnstep (r : BitVec 16) (bit : Bool) : BitVec 16 :=
  let top := r.getLsbD 0 ^^ bit
  let shifted := if top then r ^^^ Config.crcPoly else r
  (shifted >>> 1) ||| (BitVec.ofBool top).setWidth 16 <<< 15

/-- The steps for the bits `blk[0]` up to `blk[k−1]` undone, `j` the next bit. -/
def crcUnsteps (blk : BitVec 48) (r : BitVec 16) (j k : Nat) : BitVec 16 :=
  match k with
  | 0 => r
  | k + 1 => crcUnsteps blk (crcUnstep r (blk.getLsbD j)) (j + 1) k

/-- The seed that makes a 48-bit tail and header block valid (41_crc.md R134): the register's last value `CRC_XOR` run
back through the 48 steps. -/
def crcSeed (blk : BitVec 48) : BitVec 16 := crcUnsteps blk Config.crcXor 0 48

/-- CRC din (41_crc.md R131). -/
def execCrc (din : BitVec 64) (s : State) : Result :=
  testPortPrologue s fun s => respond (.crc (crc16 din) (crcValid din)) s

end Sys2Proof.Machine
end

