-- ==== Sys2Proof/Machine/FieldModel.lean ====
section
/-! DEFINITION. The moves of the frame decoder that a data pattern selects: a sync match (42_frame_decoder.md R151–R153)
and an accepted or dropped A-field (R156–R161). PARSE makes these moves; the table's data-pattern rows name them
(assumption 5). -/

namespace Sys2Proof.Machine

/-- The window `w` at the cursor matched a sync pattern: it is consumed whole and recorded (42_frame_decoder.md R151,
R153). -/
def syncFound (kind : SyncKind) (w : Window) (s : State) : Result :=
  advanceThen 64 s fun s => respond prPartial (s.setDstate (.aField { kind := kind, raw := w }))

/-- The A-field at the cursor, its CRC valid and its header `h`: it is consumed, and its header, tail and B-field length
are recorded (42_frame_decoder.md R156, R158–R161). -/
def acceptAField (h : MACHeader) (s : State) : Result :=
  windowThen s fun a =>
    advanceThen 64 s fun s => respond prPartial (s.setDstate (.bField h (tailOf a) (bLen h.sizeClass)))

/-- The A-field at the cursor, its CRC not valid: it is consumed all the same and the candidate dropped
(42_frame_decoder.md R156, R157). -/
def dropCandidate (s : State) : Result :=
  advanceThen 64 s fun s => respond prCrcError (s.setDstate .newMessage)

/-- The row FP_SYNC: PARSE's move when the window at the cursor is `lead ++ FP_SYNC`. -/
def execFpSync (lead : BitVec 40) (s : State) : Result :=
  prologue s (syncFound .fixed (lead ++ Config.fpSync))

/-- The row PP_SYNC: PARSE's move when the window at the cursor is `lead ++ PP_SYNC`. -/
def execPpSync (lead : BitVec 40) (s : State) : Result :=
  prologue s (syncFound .portable (lead ++ Config.ppSync))

/-- The row SIZE_CLASS 000: PARSE's move on a valid A-field whose header has class 0b000. -/
def execSizeClass000 (tailId : BitVec 3) (q1 q2 : BitVec 1) (s : State) : Result :=
  prologue s (acceptAField { tailId := tailId, q1 := q1, sizeClass := 0b000#3, q2 := q2 })

/-- The row SIZE_CLASS 001: PARSE's move on a valid A-field whose header has class 0b001. -/
def execSizeClass001 (tailId : BitVec 3) (q1 q2 : BitVec 1) (s : State) : Result :=
  prologue s (acceptAField { tailId := tailId, q1 := q1, sizeClass := 0b001#3, q2 := q2 })

/-- The row SIZE_CLASS 010: PARSE's move on a valid A-field whose header has class 0b010. -/
def execSizeClass010 (tailId : BitVec 3) (q1 q2 : BitVec 1) (s : State) : Result :=
  prologue s (acceptAField { tailId := tailId, q1 := q1, sizeClass := 0b010#3, q2 := q2 })

/-- The row SIZE_CLASS 011: PARSE's move on a valid A-field whose header has class 0b011. -/
def execSizeClass011 (tailId : BitVec 3) (q1 q2 : BitVec 1) (s : State) : Result :=
  prologue s (acceptAField { tailId := tailId, q1 := q1, sizeClass := 0b011#3, q2 := q2 })

/-- The row SIZE_CLASS 100: PARSE's move on a valid A-field whose header has class 0b100. -/
def execSizeClass100 (tailId : BitVec 3) (q1 q2 : BitVec 1) (s : State) : Result :=
  prologue s (acceptAField { tailId := tailId, q1 := q1, sizeClass := 0b100#3, q2 := q2 })

/-- The row SIZE_CLASS 101: PARSE's move on a valid A-field whose header has class 0b101. -/
def execSizeClass101 (tailId : BitVec 3) (q1 q2 : BitVec 1) (s : State) : Result :=
  prologue s (acceptAField { tailId := tailId, q1 := q1, sizeClass := 0b101#3, q2 := q2 })

/-- The row SIZE_CLASS 110: PARSE's move on a valid A-field whose header has class 0b110. -/
def execSizeClass110 (tailId : BitVec 3) (q1 q2 : BitVec 1) (s : State) : Result :=
  prologue s (acceptAField { tailId := tailId, q1 := q1, sizeClass := 0b110#3, q2 := q2 })

/-- The row SIZE_CLASS 111: PARSE's move on a valid A-field whose header has class 0b111. -/
def execSizeClass111 (tailId : BitVec 3) (q1 q2 : BitVec 1) (s : State) : Result :=
  prologue s (acceptAField { tailId := tailId, q1 := q1, sizeClass := 0b111#3, q2 := q2 })

end Sys2Proof.Machine
end

