-- ==== Sys2Proof/Machine/FrameDecoder.lean ====
section
/-! DEFINITION. PARSE, the frame-assembly state machine (42_frame_decoder.md). -/

namespace Sys2Proof.Machine

/-- How a scan ends. -/
inductive ScanResult where
  /-- Every window position was rejected; `c` is the first one not examined. -/
  | exhausted (c : Nat)
  /-- The window `w` at position `p` is the first that matches. -/
  | found (p : Nat) (kind : SyncKind) (w : Window)
  /-- A window outside the stream was asked for; no scan that PARSE makes ends so. -/
  | outside
  deriving DecidableEq, Repr

/-- The scan from position `c` on: the loop of 42_frame_decoder.md R151. `fuel` bounds its passes; `storedBits m` is
enough, for a pass is made only while 64 bits remain from `c` on (R169). -/
def scan (m : Memory) (fuel c : Nat) : ScanResult :=
  match fuel with
  | 0 => .exhausted c
  | fuel + 1 =>
    if storedBits m - c < 64 then .exhausted c
    else
      match windowAt m c with
      | none => .outside
      | some w =>
        match classifySync w with
        | some kind => .found c kind w
        | none => scan m fuel (c + 1)

/-- ParseNewMessage (42_frame_decoder.md R151–R154). -/
def parseNewMessage (s : State) : Result :=
  match scan s.buf (storedBits s.buf) s.cur with
  | .exhausted c => respond prMoreData (s.setCur c)
  | .found p kind w => syncFound kind w (s.setCur p)
  | .outside => .fault .memReadOutsideStream

/-- ParseAField (42_frame_decoder.md R155–R161). -/
def parseAField (s : State) : Result :=
  if available s < 64 then respond prMoreData s
  else windowThen s fun a =>
    if crc16 a ≠ 0x0000#16 then dropCandidate s else acceptAField (headerOf a) s

/-- The packet is complete (42_frame_decoder.md R165). -/
def completeFrame (p : MACPacket) (s : State) : Result := respond (prFull p) (s.setDstate .newMessage)

/-- ParseBField (42_frame_decoder.md R162–R165). -/
def parseBField (header : MACHeader) (tail : Tail) (length : BitVec 7) (s : State) : Result :=
  if available s < length.toNat then respond prMoreData s
  else if length = 0#7 then completeFrame { header := header, tail := tail, payload := none } s
  else peekThen length.toNat s fun bits =>
    advanceThen length.toNat s (completeFrame { header := header, tail := tail, payload := some bits })

/-- PARSE (42_frame_decoder.md R150). -/
def execParse (s : State) : Result :=
  prologue s fun s =>
    match s.dstate with
    | .newMessage => parseNewMessage s
    | .aField _ => parseAField s
    | .bField header tail length => parseBField header tail length s

end Sys2Proof.Machine
end

