-- ==== Sys2Proof/Machine/Dispatch.lean ====
section
/-! DEFINITION. One arm per constructor of Instr. -/

namespace Sys2Proof.Machine

def exec (i : Instr) (s : State) : Host.Outcome State Fault Refusal :=
  match i with
  | .reset => Sys2Proof.Machine.execReset s
  | .extend b => Sys2Proof.Machine.execExtend b s
  | .parse => Sys2Proof.Machine.execParse s
  | .status => Sys2Proof.Machine.execStatus s
  | .avail => Sys2Proof.Machine.execAvail s
  | .peek n => Sys2Proof.Machine.execPeek n s
  | .nextwin => Sys2Proof.Machine.execNextwin s
  | .advance n => Sys2Proof.Machine.execAdvance n s
  | .crc din => Sys2Proof.Machine.execCrc din s
  | .reservedOp0 arg => Sys2Proof.Machine.execReservedOp0 arg s
  | .reservedOpsABEF op arg => Sys2Proof.Machine.execReservedOpsABEF op arg s
  | .reservedOpsCDEF op arg => Sys2Proof.Machine.execReservedOpsCDEF op arg s
  | .fpSync lead => Sys2Proof.Machine.execFpSync lead s
  | .ppSync lead => Sys2Proof.Machine.execPpSync lead s
  | .sizeClass000 tailId q1 q2 => Sys2Proof.Machine.execSizeClass000 tailId q1 q2 s
  | .sizeClass001 tailId q1 q2 => Sys2Proof.Machine.execSizeClass001 tailId q1 q2 s
  | .sizeClass010 tailId q1 q2 => Sys2Proof.Machine.execSizeClass010 tailId q1 q2 s
  | .sizeClass011 tailId q1 q2 => Sys2Proof.Machine.execSizeClass011 tailId q1 q2 s
  | .sizeClass100 tailId q1 q2 => Sys2Proof.Machine.execSizeClass100 tailId q1 q2 s
  | .sizeClass101 tailId q1 q2 => Sys2Proof.Machine.execSizeClass101 tailId q1 q2 s
  | .sizeClass110 tailId q1 q2 => Sys2Proof.Machine.execSizeClass110 tailId q1 q2 s
  | .sizeClass111 tailId q1 q2 => Sys2Proof.Machine.execSizeClass111 tailId q1 q2 s

end Sys2Proof.Machine
end

