-- ==== Sys2Proof/Machine/Fetch.lean ====
section
/-! DEFINITION. How the next command reaches the block, and how a table row's word is placed so that the next step runs
it. The block has no program counter and fetches no instructions (10_state.md R33): the host issues commands. -/

namespace Sys2Proof.Machine

/-- The next command the host issues, and the state once it is issued (60_exceptions.md R214; assumption 1). -/
def nextCommand (s : State) : Option (HostCommand × State) :=
  match s.port with
  | [] => none
  | c :: rest => some (c, s.setPort rest)

/-- The command word of PARSE, with no data operand (30_encoding.md R71). -/
def parseCommand : HostCommand := { cmd := 0x3000#16, din := 0#64 }

/-- The eight bytes of a window, the first received first (20_memory.md R54). -/
def windowBytes (w : Window) : List Byte := (List.range 8).map (windowByte w)

/-- The A-field with a zero tail, this header byte, and the seed that makes its CRC valid (30_encoding.md R82,
41_crc.md R134). -/
def validAField (h : Byte) : Window :=
  let block : BitVec 48 := (0#40 : BitVec 40) ++ h
  crcSeed block ++ block

/-- The state of AField that waits for an A-field: the present one, or one after a Fixed sync window with zero lead
bits. -/
def awaitingAField (d : DecoderState) : DecoderState :=
  match d with
  | .aField sync => .aField sync
  | .newMessage => .aField { kind := .fixed, raw := (0#40 : BitVec 40) ++ Config.fpSync }
  | .bField _ _ _ => .aField { kind := .fixed, raw := (0#40 : BitVec 40) ++ Config.fpSync }

/-- Appends these bytes, moves the cursor to the first of them, puts the frame decoder in state `d`, and has the host
issue PARSE next. -/
def placeInStream (bytes : List Byte) (d : DecoderState) (s : State) : State :=
  (((s.setBuf (s.buf ++ bytes)).setCur (storedBits s.buf)).setDstate d).setPort (parseCommand :: s.port)

/-- Places an encoded form where the next step takes it from: a command at the command interface, a sync window in the
stream for PARSE in NewMessage, a header byte in a valid A-field for PARSE in AField (assumption 9). -/
def placeEncoded (e : Encoded) (s : State) : State :=
  match e with
  | .command c => s.setPort (c :: s.port)
  | .window w => placeInStream (windowBytes w) .newMessage s
  | .header h => placeInStream (windowBytes (validAField h)) (awaitingAField s.dstate) s

end Sys2Proof.Machine
end

