-- ==== Sys2Proof/Machine/Step.lean ====
section
/-! DEFINITION. One step of the block: the host's next command, decoded and run. -/

namespace Sys2Proof.Machine

/-- One step. With no command issued the block is idle and holds its state (60_exceptions.md R212). A command word that
decodes runs as its instruction; one that does not is an illegal command (30_encoding.md R73). -/
def step (s : State) : Host.Outcome State Fault Refusal :=
  match nextCommand s with
  | none => .next s
  | some (c, t) =>
    match decode (.command c) with
    | .ok i => exec i t
    | .error _ => rejectCommand t

/-- The state whose next step runs the instruction with these bits, numbered as spec/opcode_table.json numbers them
(assumption 9). -/
def State.withFetchWord (s : State) (nbits w : Nat) : State := placeEncoded (Encoded.ofTable nbits w) s

end Sys2Proof.Machine
end

