-- ==== Sys2Proof/Machine/Assembler.lean ====
section
/-! DEFINITION. The assembler syntax and the pseudo-instructions EXTEND b1, …, bk, EXTENDHEX and DRAIN
(30_encoding.md R79), on lines of characters. The block sees only the command words that come out. -/

namespace Sys2Proof.Machine

/-- What one line asks of the host: a command to issue, or the DRAIN loop (30_encoding.md R79). -/
inductive AsmItem where
  | command (c : HostCommand)
  | drain
  deriving DecidableEq, Repr

/-- The item of a command instruction. -/
def asmCommand (i : Instr) : List AsmItem :=
  match encodeCommand i with
  | some c => [.command c]
  | none => []

/-! ## Characters and numbers -/

/-- The upper-case form of a letter; mnemonics are case-insensitive. -/
def upperChar (c : Char) : Char := if 'a' ≤ c ∧ c ≤ 'z' then Char.ofNat (c.toNat - 32) else c

/-- The value of a decimal digit. -/
def decDigit (c : Char) : Option Nat := if '0' ≤ c ∧ c ≤ '9' then some (c.toNat - 48) else none

/-- The value of a hex digit, in either case. -/
def hexDigit (c : Char) : Option Nat :=
  match decDigit c with
  | some d => some d
  | none => if 'A' ≤ upperChar c ∧ upperChar c ≤ 'F' then some ((upperChar c).toNat - 55) else none

/-- The number a digit string spells in a base, read on from `acc`. -/
def digitsValue (base : Nat) (digit : Char → Option Nat) (acc : Nat) (cs : List Char) : Option Nat :=
  match cs with
  | [] => some acc
  | c :: cs =>
    match digit c with
    | some d => digitsValue base digit (base * acc + d) cs
    | none => none

/-- A number: `0x` and hex digits, or decimal digits (30_encoding.md R79). -/
def numberOf (token : List Char) : Option Nat :=
  match token with
  | [] => none
  | '0' :: 'x' :: [] => none
  | '0' :: 'x' :: cs => digitsValue 16 hexDigit 0 cs
  | c :: cs => digitsValue 10 decDigit 0 (c :: cs)

/-- A number below `2 ^ w`, as a bit vector. -/
def operandOf (w : Nat) (token : List Char) : Option (BitVec w) :=
  match numberOf token with
  | some n => if n < 2 ^ w then some (BitVec.ofNat w n) else none
  | none => none

/-- The 64-bit block of CRC: `0x` and exactly 16 hex digits, byte 0 first (30_encoding.md R79). -/
def blockOf (token : List Char) : Option (BitVec 64) :=
  match token with
  | '0' :: 'x' :: cs => if cs.length = 16 then (digitsValue 16 hexDigit 0 cs).map (BitVec.ofNat 64) else none
  | _ => none

/-! ## Lines -/

/-- The line up to its first `;`, which starts a comment. -/
def stripComment (line : List Char) : List Char := line.takeWhile fun c => c != ';'

/-- Whether a character separates tokens. -/
def isSeparator (c : Char) : Bool := c == ' ' || c == '\t' || c == '\r' || c == ','

/-- The tokens of a line, `current` the one being read, its last character first. -/
def tokensFrom (current : List Char) (line : List Char) : List (List Char) :=
  match line with
  | [] => if current.isEmpty then [] else [current.reverse]
  | c :: cs =>
    if isSeparator c then
      if current.isEmpty then tokensFrom [] cs else current.reverse :: tokensFrom [] cs
    else tokensFrom (c :: current) cs

/-- All values of a list of options, or none. -/
def allOf {α : Type} (l : List (Option α)) : Option (List α) :=
  match l with
  | [] => some []
  | none :: _ => none
  | some a :: l => (allOf l).map (a :: ·)

/-- The bytes of a hex string of 2k digits, left to right. -/
def hexBytes (cs : List Char) : Option (List Byte) :=
  match cs with
  | [] => some []
  | [_] => none
  | a :: b :: cs =>
    match hexDigit a, hexDigit b, hexBytes cs with
    | some x, some y, some bytes => some (BitVec.ofNat 8 (16 * x + y) :: bytes)
    | _, _, _ => none

/-- The items of PEEK or ADVANCE with the count a token spells, at most `P_MAX_PEEK` (30_encoding.md R79, 00_scope.md R11). -/
def asmCounted (p : Params) (token : List Char) (i : BitVec 12 → Instr) : Option (List AsmItem) :=
  match (operandOf 12 token).bind fun n => encodeCommand (i n) with
  | some c => if carries p c then some [.command c] else none
  | none => none

/-- `EXTEND b1, …, bk`: one EXTEND per byte, in order; nothing for no byte (30_encoding.md R79, 40_bit_cursor.md R101). -/
def asmExtend (bytes : List Byte) : List AsmItem := bytes.flatMap fun b => asmCommand (.extend b)

/-- One line of tokens (30_encoding.md R79), for an implementation with these parameters. -/
def assembleTokens (p : Params) (tokens : List (List Char)) : Option (List AsmItem) :=
  match tokens with
  | [] => some []
  | m :: args =>
    match m.map upperChar, args with
    | ['R', 'E', 'S', 'E', 'T'], [] => some (asmCommand .reset)
    | ['E', 'X', 'T', 'E', 'N', 'D'], args => (allOf (args.map (operandOf 8))).map asmExtend
    | ['P', 'A', 'R', 'S', 'E'], [] => some (asmCommand .parse)
    | ['S', 'T', 'A', 'T', 'U', 'S'], [] => some (asmCommand .status)
    | ['A', 'V', 'A', 'I', 'L'], [] => some (asmCommand .avail)
    | ['P', 'E', 'E', 'K'], [n] => asmCounted p n .peek
    | ['N', 'E', 'X', 'T', 'W', 'I', 'N'], [] => some (asmCommand .nextwin)
    | ['A', 'D', 'V', 'A', 'N', 'C', 'E'], [n] => asmCounted p n .advance
    | ['C', 'R', 'C'], [block] => (blockOf block).map fun din => asmCommand (.crc din)
    | ['E', 'X', 'T', 'E', 'N', 'D', 'H', 'E', 'X'], [] => some []
    | ['E', 'X', 'T', 'E', 'N', 'D', 'H', 'E', 'X'], [hex] => (hexBytes hex).map asmExtend
    | ['D', 'R', 'A', 'I', 'N'], [] => some [.drain]
    | _, _ => none

/-- One line of assembler text; none where it is no line of the syntax (assumption 15). -/
def assembleLine (p : Params) (line : List Char) : Option (List AsmItem) :=
  assembleTokens p (tokensFrom [] (stripComment line))

end Sys2Proof.Machine
end

