-- ==== Sys2Proof/Machine/System.lean ====
section
/-! DEFINITION. Several instances: k independent copies of one block (60_exceptions.md R213). -/

namespace Sys2Proof.Machine

/-- One step of instance `k` of a system, the others untouched; a number that names no instance names nothing to step
(60_exceptions.md R213; assumption 11). -/
def stepInstance (k : Nat) (sys : List State) : Host.Outcome (List State) Fault Refusal :=
  match sys[k]? with
  | none => .next sys
  | some s =>
    match step s with
    | .next t => .next (sys.set k t)
    | .fault f => .fault f
    | .refused r => .refused r

/-- Steps of a system in the order the schedule names the instances. -/
def runSchedule (schedule : List Nat) (sys : List State) : Host.Outcome (List State) Fault Refusal :=
  match schedule with
  | [] => .next sys
  | k :: ks =>
    match stepInstance k sys with
    | .next t => runSchedule ks t
    | .fault f => .fault f
    | .refused r => .refused r

end Sys2Proof.Machine
end

