-- ==== Sys2Proof/Safety.lean ====
section
/-! DEFINITION. The invariant of the reachable states, the host's sequences of commands, DRAIN, and the observation of a
run, in the terms the claims use. -/

namespace Sys2Proof.Machine

/-! ## The invariant -/

/-- The cursor is within the stored bits (10_state.md R22). -/
abbrev State.CursorInStream (s : State) : Prop := s.cur ≤ storedBits s.buf

/-- The sync record holds the pattern of its kind (10_state.md R27), and the length is the one of the header's class
(10_state.md R28). -/
def DecoderState.consistent (d : DecoderState) : Bool :=
  match d with
  | .newMessage => true
  | .aField sync => classifySync sync.raw == some sync.kind
  | .bField header _ length => length == bLen header.sizeClass

abbrev DecoderState.Consistent (d : DecoderState) : Prop := d.consistent = true

/-- The retained bytes are within a finite capacity (20_memory.md R64). -/
def State.withinCapacity (s : State) : Bool :=
  match s.params.capacity with
  | none => true
  | some c => decide (retained s ≤ c)

abbrev State.WithinCapacity (s : State) : Prop := s.withinCapacity = true

/-- What holds in every reachable state. -/
abbrev State.Inv (s : State) : Prop := s.CursorInStream ∧ s.dstate.Consistent ∧ s.WithinCapacity

/-! ## Sequences of commands -/

/-- The left fold of the command rules over a sequence of instructions (20_memory.md R61). -/
def runInstrs (is : List Instr) (s : State) : Result :=
  match is with
  | [] => .next s
  | i :: is => andThen (exec i s) (runInstrs is)

/-- The source's `extend(bytes)`: one EXTEND per byte (40_bit_cursor.md R101). -/
def extendAll (bytes : List Byte) (s : State) : Result := runInstrs (bytes.map .extend) s

/-- Whether the last response is a PARSE result with `code = MoreData`. -/
def State.lastIsMoreData (s : State) : Bool :=
  match s.responses.getLast? with
  | some r => isMoreData r
  | none => false

/-- DRAIN, the host loop: PARSE until a response has `code = MoreData` (30_encoding.md R79), at most `k` times. The bound
is the model's choice: the rule gives the loop no other end (assumption 17). -/
def drainAtMost (k : Nat) (s : State) : Result :=
  match k with
  | 0 => .next s
  | k + 1 => andThen (exec .parse s) fun t => if t.lastIsMoreData then .next t else drainAtMost k t

/-- A number of PARSE commands that suffices for a DRAIN: one more than the results 42_frame_decoder.md R175 allows
before `MoreData`. -/
def drainBound (s : State) : Nat := 3 * (available s / 128) + 4

/-- DRAIN. On a block without a fault it ends with `MoreData` before the bound does (42_frame_decoder.md R175). On a
faulted block PARSE answers `Faulted` for ever (60_exceptions.md R203) and the spec names no end for the loop; that the
bound ends it there, after `drainBound` such responses, is the model's choice, DESIGN CHOICE (assumption 17). -/
def drain (s : State) : Result := drainAtMost (drainBound s) s

/-- The consumer loop: each chunk extended, then DRAIN (70_reset_and_hazards.md R232). On a faulted block each DRAIN ends
as the model chooses (assumption 17). -/
def feed (chunks : List (List Byte)) (s : State) : Result :=
  match chunks with
  | [] => .next s
  | bytes :: rest => andThen (andThen (extendAll bytes s) drain) (feed rest)

/-! ## The observation of a run -/

/-- The run is quiescent: the host has nothing more to issue and its last response is `MoreData`
(70_reset_and_hazards.md R233). -/
abbrev State.Quiescent (s : State) : Prop := s.port = [] ∧ s.lastIsMoreData = true

/-- The packets and dropped candidates of a run, in order (70_reset_and_hazards.md R233). -/
def State.events (s : State) : List FrameEvent := s.responses.filterMap frameEvent

/-- The PARSE responses of a run, in order (70_reset_and_hazards.md R233): its ParseResults. The rule does not say whether
the `Faulted` answer of a PARSE on a faulted block counts among them; that it does not is the model's choice, DESIGN
CHOICE (assumption 19). -/
def State.parseResults (s : State) : List ParseResult :=
  s.responses.filterMap fun r =>
    match r with
    | .parsed p => some p
    | _ => none

/-- Two memories of one length hold the same bits from a stream position on: they differ at most in bytes consumed
before it (20_memory.md R63). -/
abbrev SameFrom (c : Nat) (m m' : Memory) : Prop := m.length = m'.length ∧ ∀ a, c < 8 * (a + 1) → readByte m a = readByte m' a

end Sys2Proof.Machine
end

