-- ==== Sys2Proof/Certificates/Slice0/Obligations.lean ====
section
/-! DEFINITION. The statements for the provers. In all of them `port` and `responses`, the two ends of the command
interface, are the model's own fields (assumptions 1 and 2), the parameters stand in the state so that a statement
holds for every choice of them (assumption 3), and the rows of data patterns are PARSE's moves (assumption 5). -/

open Sys2Proof Sys2Proof.Machine

/-! ## Reset, decoding and the step -/

/-- 10_state.md R35: every state element at the start of a run and after the RESET command, and the parameters fixed for
the run. -/
def Obligations.ResetLeavesTheSpecValues : Prop :=
  (State.reset.buf = [] ∧ State.reset.cur = 0 ∧ available State.reset = 0 ∧ State.reset.dstate = .newMessage ∧
    State.reset.fault = none) ∧
  (∀ s, s.fault = none → ∃ t, exec .reset s = .next t ∧ t.buf = [] ∧ t.cur = 0 ∧ available t = 0 ∧
    t.dstate = .newMessage ∧ t.fault = none) ∧
  ∀ i s t, exec i s = .next t → t.params = s.params

/-- The invariant of `StepKeepsTheInvariant` holds at reset. -/
def Obligations.ResetMeetsTheInvariant : Prop := State.reset.Inv

/-- From every state that meets the invariant a step gives one that does: the cursor stays within the stored bits
(10_state.md R22), the sync record holds its kind's pattern (R27), the length is the one of the header's class (R28),
and the retained bytes stay within a finite capacity (20_memory.md R64). -/
def Obligations.StepKeepsTheInvariant : Prop :=
  ∀ s t, s.Inv → step s = .next t → t.Inv

/-- Decoding an encoded well-formed instruction gives it back, with every operand at every value. -/
def Obligations.DecodeOfEncodeIsIdentity : Prop :=
  ∀ i, i.wellFormed = true → decode (encode i) = .ok i

/-- What decodes is well-formed and encodes to the bits it was read from; of a command's `din` only CRC's is kept
(30_encoding.md R70). -/
def Obligations.EncodeOfDecodeIsTheWord : Prop :=
  (∀ c i, decode (.command c) = .ok i → i.wellFormed = true ∧
    encode i = .command { cmd := c.cmd, din := if opField c.cmd = 0x9#4 then c.din else 0#64 }) ∧
  (∀ w i, decode (.window w) = .ok i → i.wellFormed = true ∧ encode i = .window w) ∧
  (∀ h i, decode (.header h) = .ok i → i.wellFormed = true ∧ encode i = .header h)

/-- 30_encoding.md R72: the must-be-zero bits, and that a word with one of them set is an illegal command. -/
def Obligations.NonZeroReservedBitIsIllegal : Prop :=
  (∀ c, decode (.command c) = .error .mustBeZero ↔
    (argField c.cmd ≠ 0#12 ∧ (opField c.cmd = 0x1#4 ∨ opField c.cmd = 0x3#4 ∨ opField c.cmd = 0x4#4 ∨
      opField c.cmd = 0x5#4 ∨ opField c.cmd = 0x7#4 ∨ opField c.cmd = 0x9#4)) ∨
    ((argField c.cmd).extractLsb' 8 4 ≠ 0#4 ∧ opField c.cmd = 0x2#4)) ∧
  ∀ s c rest, s.port = c :: rest → s.fault = none → decode (.command c) = .error .mustBeZero →
    step s = .next (((s.setPort rest).setFault .illegalCommand).answer (.faulted .illegalCommand))

/-- A few words written out from the encodings of 30_encoding.md R71, R81 and R83. -/
def Obligations.SampleWordsDecode : Prop :=
  decodeTableWord 16 0b0001000000000000 = some .reset ∧
  decodeTableWord 16 0b0010000000110100 = some (.extend 0x34#8) ∧
  decodeTableWord 16 0b0011000000000000 = some .parse ∧
  decodeTableWord 16 0b0110000000001100 = some (.peek 12#12) ∧
  decodeTableWord 16 0b1000000000000101 = some (.advance 5#12) ∧
  decodeTableWord 80 0x00000000000000019000 = some (.crc 1#64) ∧
  decodeTableWord 16 0b1011000000000000 = some (.reservedOpsABEF 0xB#4 0#12) ∧
  decodeTableWord 64 0xFFFFFFFFFFAAE98A = some (.fpSync 0xFFFFFFFFFF#40) ∧
  decodeTableWord 8 0b10100101 = some (.sizeClass010 5#3 0#1 1#1)

/-- A step runs the instruction the host's next command decodes to, on the state with that command issued; the port is
the model's (assumption 1). -/
def Obligations.StepRunsTheDecodedCommand : Prop :=
  ∀ s c rest i, s.port = c :: rest → decode (.command c) = .ok i → step s = exec i (s.setPort rest)

/-- 60_exceptions.md R212: between commands the block holds all of its state. -/
def Obligations.IdleStepHoldsTheState : Prop :=
  ∀ s, s.port = [] → step s = .next s

/-- Every command the host issues, whatever its word, ends in a next state with exactly one more response
(30_encoding.md R75); the rest of the port and the parameters stay. The premise is the cursor part of the invariant. -/
def Obligations.EveryCommandAnswersOnce : Prop :=
  ∀ s c rest, s.CursorInStream → s.port = c :: rest →
    ∃ t r, step s = .next t ∧ t.responses = s.responses ++ [r] ∧ t.port = rest ∧ t.params = s.params

/-- PARSE runs the row of the sync window its scan stops at, with the cursor at that window. That the rows are PARSE's
moves is the model's reading (assumption 5). -/
def Obligations.SyncMatchRunsThePatternRow : Prop :=
  ∀ s p w i, s.fault = none → s.dstate = .newMessage → s.cur ≤ p → windowAt s.buf p = some w →
    decode (.window w) = .ok i →
    (∀ q, s.cur ≤ q → q < p → ∃ v, windowAt s.buf q = some v ∧ decode (.window v) = .error .noSyncPattern) →
    exec .parse s = exec i (s.setCur p)

/-- PARSE runs the row of the header byte of a valid A-field. That the rows are PARSE's moves is the model's reading
(assumption 5). -/
def Obligations.ValidAFieldRunsTheHeaderRow : Prop :=
  ∀ s sync a i, s.fault = none → s.dstate = .aField sync → windowAt s.buf s.cur = some a → crc16 a = 0x0000#16 →
    decode (.header (headerByteOf a)) = .ok i → exec .parse s = exec i s

/-! ## Faults -/

/-- 60_exceptions.md R203: a faulted block answers `Faulted` to everything and changes nothing. -/
def Obligations.FaultedBlockIsTerminal : Prop :=
  (∀ i s code, s.fault = some code → exec i s = .next (s.answer (.faulted code))) ∧
  (∀ s c rest code, s.port = c :: rest → s.fault = some code →
    step s = .next ((s.setPort rest).answer (.faulted code)))

/-- 60_exceptions.md R206 and R202: a command that faults writes the fault field and answers, and nothing else. R206
is an inference the spec marks as its own. -/
def Obligations.FaultingCommandWritesOnlyTheFault : Prop :=
  ∀ i s t code, s.fault = none → exec i s = .next t → t.fault = some code →
    t = (s.setFault code).answer (.faulted code)

/-- 60_exceptions.md R201 and R205: exactly which commands record which fault, on a block without one. -/
def Obligations.WhichCommandsFault : Prop :=
  ∀ i s t, s.fault = none → exec i s = .next t →
    (t.fault = some .illegalCommand ↔
      (∃ arg, i = .reservedOp0 arg) ∨ (∃ op arg, i = .reservedOpsABEF op arg) ∨ (∃ op arg, i = .reservedOpsCDEF op arg) ∨
      (s.params.testPort = false ∧
        (i = .avail ∨ (∃ n, i = .peek n) ∨ i = .nextwin ∨ (∃ n, i = .advance n) ∨ ∃ din, i = .crc din))) ∧
    (t.fault = some .cursorOverrun ↔ s.params.testPort = true ∧ ∃ n, i = .advance n ∧ available s < n.toNat) ∧
    (t.fault = some .bufferOverflow ↔
      ∃ b c, i = .extend b ∧ s.params.capacity = some c ∧ c < s.buf.length + 1 - s.cur / 8)

/-- The three rows of reserved selectors raise IllegalCommand (30_encoding.md R73). -/
def Obligations.ReservedSelectorsAreIllegal : Prop :=
  ∀ s op arg, s.fault = none →
    exec (.reservedOp0 arg) s = .next ((s.setFault .illegalCommand).answer (.faulted .illegalCommand)) ∧
    exec (.reservedOpsABEF op arg) s = .next ((s.setFault .illegalCommand).answer (.faulted .illegalCommand)) ∧
    exec (.reservedOpsCDEF op arg) s = .next ((s.setFault .illegalCommand).answer (.faulted .illegalCommand))

/-! ## The commands -/

/-- 43_control.md R190. -/
def Obligations.ResetCommandRule : Prop :=
  (∀ din, decode (.command { cmd := 0x1000#16, din := din }) = .ok .reset) ∧
  (∀ s, s.fault = none → ∃ t, exec .reset s = .next t ∧ t.buf = [] ∧ t.cur = 0 ∧ t.dstate = .newMessage ∧
    t.fault = none ∧ t.params = s.params ∧ t.port = s.port ∧ t.responses = s.responses ++ [.ok]) ∧
  exec .reset State.reset = .next (State.reset.answer .ok) ∧
  (∀ s code, s.fault = some code → exec .reset s = .next (s.answer (.faulted code)))

/-- 43_control.md R191. -/
def Obligations.StatusCommandRule : Prop :=
  (∀ din, decode (.command { cmd := 0x4000#16, din := din }) = .ok .status) ∧
  ∀ s, s.fault = none →
    exec .status s = .next (s.answer (.status
      { tag := match s.dstate with | .newMessage => 0b00#2 | .aField _ => 0b01#2 | .bField _ _ _ => 0b10#2
        cur := s.cur
        storedBits := 8 * s.buf.length
        fault := none
        fields := match s.dstate with
          | .newMessage => .none
          | .aField sync => .aField (match sync.kind with | .fixed => 0#1 | .portable => 1#1) sync.raw
          | .bField h t len =>
            .bField (h.tailId ++ h.q1 ++ h.sizeClass ++ h.q2) (t.b0 ++ t.b1 ++ t.b2 ++ t.b3 ++ t.b4) len }))

/-- 40_bit_cursor.md R100. -/
def Obligations.ExtendCommandRule : Prop :=
  (∀ b din, decode (.command { cmd := 0x20#8 ++ b, din := din }) = .ok (.extend b)) ∧
  (∀ s b, s.fault = none → (∀ c, s.params.capacity = some c → s.buf.length + 1 - s.cur / 8 ≤ c) →
    exec (.extend b) s = .next ((s.setBuf (s.buf ++ [b])).answer .ok)) ∧
  (∀ s b c, s.fault = none → s.params.capacity = some c → c < s.buf.length + 1 - s.cur / 8 →
    exec (.extend b) s = .next ((s.setFault .bufferOverflow).answer (.faulted .bufferOverflow)))

/-- 40_bit_cursor.md R101: a multi-byte extend appends its bytes, one `Ok` each, and a split into two extends has the
same effect. R101 is an inference the spec marks as its own. -/
def Obligations.ExtendSequenceAppends : Prop :=
  ∀ s bytes more, s.fault = none → s.params.capacity = none →
    extendAll bytes s = .next { s with buf := s.buf ++ bytes, responses := s.responses ++ List.replicate bytes.length .ok } ∧
    andThen (extendAll bytes s) (extendAll more) = extendAll (bytes ++ more) s

/-- 40_bit_cursor.md R102. -/
def Obligations.AvailCommandRule : Prop :=
  (∀ din, decode (.command { cmd := 0x5000#16, din := din }) = .ok .avail) ∧
  (∀ s, s.fault = none → s.params.testPort = true →
    exec .avail s = .next (s.answer (.count (8 * s.buf.length - s.cur)))) ∧
  (∀ s t, s.fault = none → s.params.testPort = true → exec .reset s = .next t →
    exec .avail t = .next (t.answer (.count 0))) ∧
  (∀ s, s.fault = none → s.params.testPort = false →
    exec .avail s = .next ((s.setFault .illegalCommand).answer (.faulted .illegalCommand)))

/-- 40_bit_cursor.md R103, with the available bits of a cursor in the stream (10_state.md R22). -/
def Obligations.PeekCommandRule : Prop :=
  (∀ n din, decode (.command { cmd := 0x6#4 ++ n, din := din }) = .ok (.peek n)) ∧
  (∀ s n, s.fault = none → s.params.testPort = true → 8 * s.buf.length - s.cur < n.toNat →
    exec (.peek n) s = .next (s.answer .insufficient)) ∧
  (∀ s n, s.fault = none → s.params.testPort = true → s.cur + n.toNat ≤ 8 * s.buf.length →
    ∃ bits, exec (.peek n) s = .next (s.answer (.bits bits)) ∧ bits.length = n.toNat ∧
      ∀ k, k < n.toNat → bits[k]? = streamBit s.buf (s.cur + k)) ∧
  (∀ s n, s.fault = none → s.params.testPort = false →
    exec (.peek n) s = .next ((s.setFault .illegalCommand).answer (.faulted .illegalCommand)))

/-- 40_bit_cursor.md R104. -/
def Obligations.NextwinCommandRule : Prop :=
  (∀ din, decode (.command { cmd := 0x7000#16, din := din }) = .ok .nextwin) ∧
  (∀ s, s.fault = none → s.params.testPort = true → 8 * s.buf.length - s.cur < 64 →
    exec .nextwin s = .next (s.answer .insufficient)) ∧
  (∀ s, s.fault = none → s.params.testPort = true → s.cur + 64 ≤ 8 * s.buf.length →
    ∃ bits, memRead s.buf s.cur 64 = some bits ∧
      exec .nextwin s = .next ((s.setCur (s.cur + 1)).answer (.window (BitVec.ofNat 64 (uint bits))))) ∧
  (∀ s, s.fault = none → s.params.testPort = false →
    exec .nextwin s = .next ((s.setFault .illegalCommand).answer (.faulted .illegalCommand)))

/-- 40_bit_cursor.md R105. -/
def Obligations.AdvanceCommandRule : Prop :=
  (∀ n din, decode (.command { cmd := 0x8#4 ++ n, din := din }) = .ok (.advance n)) ∧
  (∀ s n, s.fault = none → s.params.testPort = true → n.toNat ≤ 8 * s.buf.length - s.cur →
    exec (.advance n) s = .next ((s.setCur (s.cur + n.toNat)).answer .ok)) ∧
  (∀ s n, s.fault = none → s.params.testPort = true → 8 * s.buf.length - s.cur < n.toNat →
    exec (.advance n) s = .next ((s.setFault .cursorOverrun).answer (.faulted .cursorOverrun))) ∧
  (∀ s n, s.fault = none → s.params.testPort = false →
    exec (.advance n) s = .next ((s.setFault .illegalCommand).answer (.faulted .illegalCommand)))

/-- 41_crc.md R131. -/
def Obligations.CrcCommandRule : Prop :=
  (∀ din, decode (.command { cmd := 0x9000#16, din := din }) = .ok (.crc din)) ∧
  crc16 0#64 = 0x0001#16 ∧ crc16 1#64 = 0x0000#16 ∧
  (∀ s din, s.fault = none → s.params.testPort = true →
    exec (.crc din) s = .next (s.answer (.crc (crc16 din) (decide (crc16 din = 0#16))))) ∧
  (∀ s din, s.fault = none → s.params.testPort = false →
    exec (.crc din) s = .next ((s.setFault .illegalCommand).answer (.faulted .illegalCommand)))

/-- 20_memory.md R58: repeating PEEK, AVAIL, STATUS or CRC gives the same response and leaves the same state. R58 is
an inference the spec marks as its own. -/
def Obligations.ReadOnlyCommandsRepeat : Prop :=
  ∀ i s t, s.fault = none → (i = .avail ∨ i = .status ∨ (∃ n, i = .peek n) ∨ ∃ din, i = .crc din) →
    exec i s = .next t → t.fault = none →
    ∃ r, t = s.answer r ∧ exec i t = .next (t.answer r)

/-! ## Frames -/

/-- What STATUS, AVAIL, PEEK, CRC and the reserved selectors leave unchanged: all but the responses, and the fault field
where the command faults. -/
def Obligations.FrameOfCommandsThatMoveNothing : Prop :=
  ∀ i s t, (i = .status ∨ i = .avail ∨ (∃ n, i = .peek n) ∨ (∃ din, i = .crc din) ∨ (∃ arg, i = .reservedOp0 arg) ∨
      (∃ op arg, i = .reservedOpsABEF op arg) ∨ ∃ op arg, i = .reservedOpsCDEF op arg) →
    exec i s = .next t →
    (∀ a, readByte t.buf a = readByte s.buf a) ∧ t.buf.length = s.buf.length ∧ t.cur = s.cur ∧ t.dstate = s.dstate ∧
      t.params = s.params ∧ t.port = s.port ∧
      (t.fault = s.fault ∨ s.fault = none ∧ i ≠ .status ∧ t.fault = some .illegalCommand)

/-- What NEXTWIN and ADVANCE leave unchanged: all but the cursor, the responses, and the fault field where they
fault. -/
def Obligations.FrameOfCursorCommands : Prop :=
  ∀ i s t, (i = .nextwin ∨ ∃ n, i = .advance n) → exec i s = .next t →
    (∀ a, readByte t.buf a = readByte s.buf a) ∧ t.buf.length = s.buf.length ∧ t.dstate = s.dstate ∧
      t.params = s.params ∧ t.port = s.port ∧
      (t.fault = s.fault ∨ s.fault = none ∧ t.cur = s.cur ∧
        (t.fault = some .illegalCommand ∨ t.fault = some .cursorOverrun ∧ i ≠ .nextwin))

/-- What EXTEND leaves unchanged: every byte but the one at the address it stores to, the cursor and the frame decoder;
the fault field but where it overflows. -/
def Obligations.FrameOfExtend : Prop :=
  ∀ b s t, exec (.extend b) s = .next t →
    (∀ a, a ≠ appendAddress s.buf → readByte t.buf a = readByte s.buf a) ∧ t.cur = s.cur ∧ t.dstate = s.dstate ∧
      t.params = s.params ∧ t.port = s.port ∧
      (t.fault = s.fault ∨ s.fault = none ∧ t.fault = some .bufferOverflow ∧ t.buf = s.buf)

/-- What RESET leaves unchanged: the fault field, the parameters and the port; on a faulted block everything but the
responses. -/
def Obligations.FrameOfReset : Prop :=
  ∀ s t, exec .reset s = .next t →
    t.fault = s.fault ∧ t.params = s.params ∧ t.port = s.port ∧
      (s.fault ≠ none → (∀ a, readByte t.buf a = readByte s.buf a) ∧ t.cur = s.cur ∧ t.dstate = s.dstate)

/-- What PARSE and the moves its data patterns select leave unchanged: every byte of the stream, the fault field, the
parameters and the port (42_frame_decoder.md R178). R178 is an inference the spec marks as its own. -/
def Obligations.FrameOfDecoderMoves : Prop :=
  ∀ i s t, (i = .parse ∨ encodeCommand i = none) → exec i s = .next t →
    (∀ a, readByte t.buf a = readByte s.buf a) ∧ t.buf.length = s.buf.length ∧ t.fault = s.fault ∧
      t.params = s.params ∧ t.port = s.port

/-- 10_state.md R22: no instruction but RESET moves the cursor backward. -/
def Obligations.CursorNeverMovesBackward : Prop :=
  ∀ i s t, i ≠ .reset → exec i s = .next t → s.cur ≤ t.cur

/-! ## The rows of data patterns -/

/-- The sync rows complete wherever 64 bits remain: the window is consumed whole and recorded
(42_frame_decoder.md R151, R153). -/
def Obligations.SyncRowsComplete : Prop :=
  ∀ s lead, s.fault = none → 64 ≤ available s →
    exec (.fpSync lead) s = .next (((s.setCur (s.cur + 64)).setDstate
      (.aField { kind := .fixed, raw := lead ++ 0xAAE98A#24 })).answer prPartial) ∧
    exec (.ppSync lead) s = .next (((s.setCur (s.cur + 64)).setDstate
      (.aField { kind := .portable, raw := lead ++ 0x551675#24 })).answer prPartial)

/-- The header rows complete wherever a window is stored at the cursor: the A-field is consumed, and its header, the
five tail bytes and the length of its class are recorded (42_frame_decoder.md R156, R158–R161; 30_encoding.md R84). -/
def Obligations.HeaderRowsComplete : Prop :=
  ∀ s a tailId q1 q2, s.fault = none → windowAt s.buf s.cur = some a →
    ∀ i cls len,
      ((i, cls, len) = (Instr.sizeClass000 tailId q1 q2, 0b000#3, 40#7) ∨
        (i, cls, len) = (Instr.sizeClass001 tailId q1 q2, 0b001#3, 40#7) ∨
        (i, cls, len) = (Instr.sizeClass010 tailId q1 q2, 0b010#3, 100#7) ∨
        (i, cls, len) = (Instr.sizeClass011 tailId q1 q2, 0b011#3, 40#7) ∨
        (i, cls, len) = (Instr.sizeClass100 tailId q1 q2, 0b100#3, 10#7) ∨
        (i, cls, len) = (Instr.sizeClass101 tailId q1 q2, 0b101#3, 40#7) ∨
        (i, cls, len) = (Instr.sizeClass110 tailId q1 q2, 0b110#3, 40#7) ∨
        (i, cls, len) = (Instr.sizeClass111 tailId q1 q2, 0b111#3, 0#7)) →
      exec i s = .next (((s.setCur (s.cur + 64)).setDstate
        (.bField { tailId := tailId, q1 := q1, sizeClass := cls, q2 := q2 }
          { b0 := a.extractLsb' 40 8, b1 := a.extractLsb' 32 8, b2 := a.extractLsb' 24 8, b3 := a.extractLsb' 16 8,
            b4 := a.extractLsb' 8 8 } len)).answer prPartial)

/-! ## The CRC engine -/

/-- 41_crc.md R133, second form: the CRC is affine. R133 is an inference the spec marks as its own. -/
def Obligations.CrcIsAffine : Prop :=
  ∀ v w, crc16 (v ^^^ w) = crc16 v ^^^ crc16 w ^^^ 0x0001#16

/-- 41_crc.md R133, first form: the CRC is the remainder of the block's polynomial by x^16 + x^10 + x^8 + x^7 + x^3 +
1 over GF(2), its constant term flipped. R133 is an inference the spec marks as its own. -/
def Obligations.CrcIsPolynomialRemainder : Prop :=
  ∀ v : BitVec 64,
    (∑ i ∈ Finset.range 16, (if (crc16 v ^^^ 0x0001#16).getLsbD i then (Polynomial.X : Polynomial (ZMod 2)) ^ i else 0)) =
      Polynomial.modByMonic
        (∑ i ∈ Finset.range 64, (if v.getLsbD i then (Polynomial.X : Polynomial (ZMod 2)) ^ i else 0))
        (Polynomial.X ^ 16 + Polynomial.X ^ 10 + Polynomial.X ^ 8 + Polynomial.X ^ 7 + Polynomial.X ^ 3 + 1)

/-- 41_crc.md R134: for every 6-byte tail and header block there is exactly one 2-byte seed that makes it valid. R134
is an inference the spec marks as its own. -/
def Obligations.SeedExistsAndIsUnique : Prop :=
  ∀ block : BitVec 48, ∃ seed : BitVec 16, crc16 (seed ++ block) = 0x0000#16 ∧
    ∀ other : BitVec 16, crc16 (other ++ block) = 0x0000#16 → other = seed

/-! ## The stream -/

/-- 20_memory.md R51: the bits of a byte, the most significant first, at the stored positions and at no other. -/
def Obligations.StreamBitIsMostSignificantFirst : Prop :=
  (∀ m k b, readByte m (k / 8) = some b → streamBit m k = some (((b >>> (7 - k % 8)) &&& 1#8) == 1#8)) ∧
  (∀ m k, 8 * m.length ≤ k → streamBit m k = none)

/-- 20_memory.md R54: byte `j` of a window is the read of the eight bits at `pos + 8j`. -/
def Obligations.WindowBytesAreReads : Prop :=
  ∀ m pos w j bits, windowAt m pos = some w → j < 8 → memRead m (pos + 8 * j) 8 = some bits →
    windowByte w j = BitVec.ofNat 8 (uint bits)

/-- 20_memory.md R55: at a byte boundary the window is the stored bytes themselves. R55 is an inference the spec marks
as its own. -/
def Obligations.AlignedWindowIsTheBytes : Prop :=
  ∀ m a w j, windowAt m (8 * a) = some w → j < 8 → readByte m (a + j) = some (windowByte w j)

/-- 20_memory.md R63: no instruction tells apart two states that differ in fully consumed bytes alone. R63 is an
inference the spec marks as its own. -/
def Obligations.ConsumedBytesAreUnobservable : Prop :=
  ∀ i s m t, SameFrom s.cur s.buf m → exec i s = .next t →
    ∃ u, exec i (s.setBuf m) = .next u ∧ u.responses = t.responses ∧ u.cur = t.cur ∧ u.dstate = t.dstate ∧
      u.fault = t.fault ∧ SameFrom t.cur t.buf u.buf

/-! ## PARSE -/

/-- 42_frame_decoder.md R168: with fewer than 64 bits NewMessage and AField wait, and BField completes as soon as its
length is there. R168 is an inference the spec marks as its own. -/
def Obligations.ParseWithFewerThan64Bits : Prop :=
  (∀ s, s.fault = none → available s < 64 → (s.dstate = .newMessage ∨ ∃ sync, s.dstate = .aField sync) →
    exec .parse s = .next (s.answer prMoreData)) ∧
  (∀ s h t len, s.fault = none → s.dstate = .bField h t len → len.toNat ≤ available s → available s < 64 →
    ∃ p u, exec .parse s = .next u ∧ u.responses = s.responses ++ [prFull p])

/-- 42_frame_decoder.md R154: a scan without a match leaves the cursor at the first window position not examined. -/
def Obligations.ScanWithoutMatchConsumes : Prop :=
  ∀ s, s.fault = none → s.dstate = .newMessage →
    (∀ p w, s.cur ≤ p → windowAt s.buf p = some w →
      w.extractLsb' 0 24 ≠ 0xAAE98A#24 ∧ w.extractLsb' 0 24 ≠ 0x551675#24) →
    exec .parse s =
      .next ((if available s < 64 then s else s.setCur (8 * s.buf.length - 63)).answer prMoreData)

/-- 42_frame_decoder.md R151–R153: the scan stops at the first window, from the cursor on, whose low 24 bits are a sync
pattern, records it, and consumes it whole. -/
def Obligations.ScanStopsAtTheFirstMatch : Prop :=
  ∀ s p w kind, s.fault = none → s.dstate = .newMessage → s.cur ≤ p → windowAt s.buf p = some w →
    (kind = SyncKind.fixed ∧ w.extractLsb' 0 24 = 0xAAE98A#24 ∨
      kind = SyncKind.portable ∧ w.extractLsb' 0 24 = 0x551675#24) →
    (∀ q v, s.cur ≤ q → q < p → windowAt s.buf q = some v →
      v.extractLsb' 0 24 ≠ 0xAAE98A#24 ∧ v.extractLsb' 0 24 ≠ 0x551675#24) →
    exec .parse s =
      .next (((s.setCur (p + 64)).setDstate (.aField { kind := kind, raw := w })).answer prPartial)

/-- 42_frame_decoder.md R157: a CRC failure consumes the A-field, drops the candidate and reports it. -/
def Obligations.CrcFailureDropsTheCandidate : Prop :=
  ∀ s sync a, s.fault = none → s.dstate = .aField sync → windowAt s.buf s.cur = some a → crc16 a ≠ 0x0000#16 →
    exec .parse s = .next (((s.setCur (s.cur + 64)).setDstate .newMessage).answer
      (.parsed { code := .partialResult, crcError := true, packet := none }))

/-- 42_frame_decoder.md R158–R161: a valid A-field is consumed and its header, tail and length recorded. -/
def Obligations.ValidAFieldIsRecorded : Prop :=
  ∀ s sync a, s.fault = none → s.dstate = .aField sync → windowAt s.buf s.cur = some a → crc16 a = 0x0000#16 →
    exec .parse s = .next (((s.setCur (s.cur + 64)).setDstate
      (.bField
        { tailId := a.extractLsb' 5 3, q1 := a.extractLsb' 4 1, sizeClass := a.extractLsb' 1 3, q2 := a.extractLsb' 0 1 }
        { b0 := a.extractLsb' 40 8, b1 := a.extractLsb' 32 8, b2 := a.extractLsb' 24 8, b3 := a.extractLsb' 16 8,
          b4 := a.extractLsb' 8 8 }
        (if a.extractLsb' 1 3 = 0b010#3 then 100#7 else if a.extractLsb' 1 3 = 0b100#3 then 10#7
          else if a.extractLsb' 1 3 = 0b111#3 then 0#7 else 40#7))).answer
      (.parsed { code := .partialResult, crcError := false, packet := none }))

/-- 42_frame_decoder.md R162–R165: BField waits for its length, then completes with exactly that many bits, or with no
payload when the length is 0. -/
def Obligations.BFieldCompletesWithItsLength : Prop :=
  ∀ s h t len, s.fault = none → s.dstate = .bField h t len →
    (available s < len.toNat → exec .parse s = .next (s.answer prMoreData)) ∧
    (len = 0#7 → exec .parse s = .next ((s.setDstate .newMessage).answer
      (.parsed { code := .full, crcError := false, packet := some { header := h, tail := t, payload := none } }))) ∧
    (len ≠ 0#7 → s.cur + len.toNat ≤ 8 * s.buf.length →
      ∃ bits, bits.length = len.toNat ∧ (∀ k, k < len.toNat → bits[k]? = streamBit s.buf (s.cur + k)) ∧
        exec .parse s = .next (((s.setCur (s.cur + len.toNat)).setDstate .newMessage).answer
          (.parsed { code := .full, crcError := false,
                     packet := some { header := h, tail := t, payload := some bits } })))

/-- 42_frame_decoder.md R166: PARSE always answers, on every state; it never reads or moves past the stored bits, and
it leaves the fault field. R166 is an inference the spec marks as its own. -/
def Obligations.ParseNeverFaults : Prop :=
  ∀ s, ∃ t, exec .parse s = .next t ∧ t.fault = s.fault

/-- 42_frame_decoder.md R167: a PARSE that answers `MoreData` changes nothing but the cursor, and that only in
NewMessage. R167 is an inference the spec marks as its own. -/
def Obligations.MoreDataChangesOnlyTheCursor : Prop :=
  ∀ s t, s.fault = none → exec .parse s = .next t → t.lastIsMoreData = true →
    t = (s.setCur t.cur).answer prMoreData ∧ (s.dstate ≠ .newMessage → t.cur = s.cur)

/-- 42_frame_decoder.md R150 and 10_state.md R24: what a PARSE can do to the decoder state. -/
def Obligations.ParseMakesAtMostOneTransition : Prop :=
  ∀ s t, exec .parse s = .next t → t.dstate ≠ s.dstate →
    match s.dstate with
    | .newMessage => ∃ sync, t.dstate = .aField sync ∧ classifySync sync.raw = some sync.kind
    | .aField _ => t.dstate = .newMessage ∨ ∃ h tail, t.dstate = .bField h tail (bLen h.sizeClass)
    | .bField _ _ _ => t.dstate = .newMessage

/-- 42_frame_decoder.md R174: a valid frame of class 0b111 completes in three PARSE commands, with no `MoreData`. R174
is an inference the spec marks as its own. -/
def Obligations.NoSlotFrameCompletesWithoutWaiting : Prop :=
  ∀ s p w a, s.fault = none → s.dstate = .newMessage → s.cur ≤ p → windowAt s.buf p = some w →
    (classifySync w).isSome → (∀ q v, s.cur ≤ q → q < p → windowAt s.buf q = some v → classifySync v = none) →
    windowAt s.buf (p + 64) = some a → crc16 a = 0x0000#16 → a.extractLsb' 1 3 = 0b111#3 →
    runInstrs [.parse, .parse, .parse] s =
      .next { s with
        cur := p + 128
        responses := s.responses ++ [prPartial, prPartial,
          prFull { header := headerOf a, tail := tailOf a, payload := none }] }

/-- 42_frame_decoder.md R177: the sync pattern and a packet's tail, header and payload come from fixed offsets from
the matching window's position `p`. R177 is an inference the spec marks as its own. -/
def Obligations.PacketFieldsAtFixedOffsets : Prop :=
  ∀ s p kind w t₁ t₂ t₃ pkt, s.fault = none → s.dstate = .newMessage →
    exec .parse s = .next t₁ → t₁.dstate = .aField { kind := kind, raw := w } → t₁.cur = p + 64 →
    exec .parse t₁ = .next t₂ → exec .parse t₂ = .next t₃ → t₃.responses = t₂.responses ++ [prFull pkt] →
    ∃ sync tail header,
      memRead s.buf (p + 40) 24 = some sync ∧
      uint sync = (match kind with | .fixed => Config.fpSync | .portable => Config.ppSync).toNat ∧
      memRead s.buf (p + 80) 40 = some tail ∧ uint tail = (tailBits pkt.tail).toNat ∧
      memRead s.buf (p + 120) 8 = some header ∧ uint header = (byteOfHeader pkt.header).toNat ∧
      (∀ bits, pkt.payload = some bits →
        memRead s.buf (p + 128) (bLen pkt.header.sizeClass).toNat = some bits) ∧
      (pkt.payload = none ↔ bLen pkt.header.sizeClass = 0#7)

/-- 42_frame_decoder.md R170: a scan that fails, is extended and goes on finds what one scan of the whole stream
finds. R170 is an inference the spec marks as its own. -/
def Obligations.ScanResumesWhereItStopped : Prop :=
  ∀ s bytes t, s.fault = none → s.params.capacity = none → s.dstate = .newMessage → exec .parse s = .next t →
    t.lastIsMoreData = true →
    ∃ u v, andThen (extendAll bytes t) (exec .parse) = .next u ∧ andThen (extendAll bytes s) (exec .parse) = .next v ∧
      u.buf = v.buf ∧ u.cur = v.cur ∧ u.dstate = v.dstate ∧ u.responses.getLast? = v.responses.getLast?

/-- 42_frame_decoder.md R175: DRAIN reaches `MoreData` within its bound. R175 is an inference the spec marks as its
own. -/
def Obligations.DrainTerminates : Prop :=
  ∀ s, s.fault = none →
    ∃ t, drain s = .next t ∧ t.lastIsMoreData = true ∧
      t.responses.length ≤ s.responses.length + (3 * (available s / 128) + 3) + 1

/-- 42_frame_decoder.md R173: under the consumer loop the packets and dropped candidates, in their order, and the
final stream, cursor and decoder state do not depend on how the bytes are split into chunks. R173 is an inference the
spec marks as its own. -/
def Obligations.ChunkSplitIndependence : Prop :=
  ∀ s chunks chunks', s.fault = none → s.params.capacity = none → chunks ≠ [] → chunks' ≠ [] →
    chunks.flatten = chunks'.flatten →
    ∃ t u, feed chunks s = .next t ∧ feed chunks' s = .next u ∧ t.events = u.events ∧ t.buf = u.buf ∧
      t.cur = u.cur ∧ t.dstate = u.dstate

/-! ## The field model and the system -/

/-- 30_encoding.md R81: the two patterns are complements, so no window matches both. R81 is an inference the spec
marks as its own. -/
def Obligations.SyncPatternsAreComplements : Prop :=
  Config.ppSync = Config.fpSync ^^^ 0xFFFFFF#24 ∧
  ∀ w : Window, ¬(w.extractLsb' 0 24 = Config.fpSync ∧ w.extractLsb' 0 24 = Config.ppSync)

/-- 30_encoding.md R84: the length of each payload-size class. -/
def Obligations.LengthOfEachSizeClass : Prop :=
  ∀ cls : BitVec 3, bLen cls =
    if cls = 0b010#3 then 100#7 else if cls = 0b100#3 then 10#7 else if cls = 0b111#3 then 0#7 else 40#7

/-- 30_encoding.md R83: the four fields of the header byte; and R78: the packet's header fields spell the byte that was
received, so the packet loses no header bit, which is an inference the spec marks as its own. -/
def Obligations.HeaderFieldsKeepTheByte : Prop :=
  ∀ a : Window, ∀ h : Byte, h = a.extractLsb' 0 8 → headerOf a = headerOfByte h ∧ byteOfHeader (headerOfByte h) = h ∧
    (headerOfByte h).tailId.toNat = h.toNat / 32 ∧ (headerOfByte h).q1.toNat = h.toNat / 16 % 2 ∧
    (headerOfByte h).sizeClass.toNat = h.toNat / 2 % 8 ∧ (headerOfByte h).q2.toNat = h.toNat % 2

/-- 60_exceptions.md R213: a step of one instance leaves every other as it was, and steps of two instances may come in
either order. R213 is an inference the spec marks as its own. -/
def Obligations.InstancesAreIndependent : Prop :=
  (∀ k j sys sys', stepInstance k sys = .next sys' → j ≠ k → sys'[j]? = sys[j]?) ∧
  (∀ k j sys, (∀ s ∈ sys, State.Inv s) → j ≠ k → runSchedule [k, j] sys = runSchedule [j, k] sys)

/-! ## The parameter P_MAX_PEEK -/

/-- 00_scope.md R11 and 20_memory.md R57: the bits a carried PEEK returns, and those a carried ADVANCE consumes, are at
most `P_MAX_PEEK`; with the value the encoding fixes (30_encoding.md R70) every command word is carried. That the
parameter bounds what the host issues is the model's reading (assumption 18). -/
def Obligations.CountsStayWithinMaxPeek : Prop :=
  (∀ c, carries Config.params c = true) ∧
  (∀ s c rest t bits, s.port = c :: rest → carries s.params c = true → step s = .next t →
    t.responses = s.responses ++ [.bits bits] → bits.length ≤ s.params.maxPeek) ∧
  (∀ s c rest t, s.port = c :: rest → carries s.params c = true → opField c.cmd = 0x8#4 → step s = .next t →
    t.cur ≤ s.cur + s.params.maxPeek)
end

