-- ==== Sys2Proof/Laws/Bits.lean ====
section
/-! SUPPORT. The fields of concatenated and split bit vectors, at any widths, and the fields of a command word. -/

namespace Sys2Proof

/-- The low field of a concatenation. -/
theorem extractLsb'_append_low {n m : Nat} (x : BitVec n) (y : BitVec m) : (x ++ y).extractLsb' 0 m = y := by
  ext k hk
  simp [BitVec.getLsbD_append, hk]

/-- The high field of a concatenation. -/
theorem extractLsb'_append_high {n m : Nat} (x : BitVec n) (y : BitVec m) : (x ++ y).extractLsb' m n = x := by
  ext k hk
  simp [BitVec.getLsbD_append, hk]

/-- A bit vector is the concatenation of its fields. -/
theorem append_extractLsb' {n m : Nat} (w : BitVec (n + m)) : w.extractLsb' m n ++ w.extractLsb' 0 m = w := by
  ext k hk
  rw [BitVec.getElem_append]
  split
  · simp [BitVec.getLsbD_eq_getElem hk]
  · rename_i h
    simp [show m + (k - m) = k by omega, BitVec.getLsbD_eq_getElem hk]

theorem opField_append (op : BitVec 4) (arg : BitVec 12) : opField (op ++ arg) = op := extractLsb'_append_high op arg

theorem argField_append (op : BitVec 4) (arg : BitVec 12) : argField (op ++ arg) = arg := extractLsb'_append_low op arg

theorem op_append_arg (cmd : CmdWord) : opField cmd ++ argField cmd = cmd := append_extractLsb' (n := 4) (m := 12) cmd

theorem lead_append_pattern (w : Window) : w.extractLsb' 24 40 ++ w.extractLsb' 0 24 = w :=
  append_extractLsb' (n := 40) (m := 24) w

/-- The sixteen selectors. -/
theorem op_cases (op : BitVec 4) :
    op = 0x0#4 ∨ op = 0x1#4 ∨ op = 0x2#4 ∨ op = 0x3#4 ∨ op = 0x4#4 ∨ op = 0x5#4 ∨ op = 0x6#4 ∨ op = 0x7#4 ∨
    op = 0x8#4 ∨ op = 0x9#4 ∨ op = 0xA#4 ∨ op = 0xB#4 ∨ op = 0xC#4 ∨ op = 0xD#4 ∨ op = 0xE#4 ∨ op = 0xF#4 := by
  revert op; decide

theorem withZeroArg_ok {arg : BitVec 12} {i j : Instr} (h : withZeroArg arg i = .ok j) : arg = 0#12 ∧ j = i := by
  unfold withZeroArg at h
  split at h <;> cases h
  exact ⟨‹_›, rfl⟩

theorem withZeroArg_error {arg : BitVec 12} {i : Instr} {e : DecodeError} :
    withZeroArg arg i = .error e ↔ arg ≠ 0#12 ∧ e = .mustBeZero := by
  unfold withZeroArg
  split
  · exact ⟨fun h => (by cases h), fun h => absurd ‹_› h.1⟩
  · exact ⟨fun h => (by cases h; exact ⟨‹_›, rfl⟩), fun h => by rw [h.2]⟩

theorem decodeExtend_ok {arg : BitVec 12} {j : Instr} (h : decodeExtend arg = .ok j) :
    ∃ b : Byte, arg = 0#4 ++ b ∧ j = .extend b := by
  unfold decodeExtend at h
  split at h <;> cases h
  rename_i hz
  exact ⟨_, by rw [← hz]; exact (append_extractLsb' (n := 4) (m := 8) arg).symm, rfl⟩

theorem decodeExtend_error {arg : BitVec 12} {e : DecodeError} :
    decodeExtend arg = .error e ↔ arg.extractLsb' 8 4 ≠ 0#4 ∧ e = .mustBeZero := by
  unfold decodeExtend
  split
  · exact ⟨fun h => (by cases h), fun h => absurd ‹_› h.1⟩
  · exact ⟨fun h => (by cases h; exact ⟨‹_›, rfl⟩), fun h => by rw [h.2]⟩

end Sys2Proof
end

