-- ==== Sys2Proof/Laws/State.lean ====
section
/-! SUPPORT. One lemma per field per update of the state, each true by rfl, so that no proof unfolds a record update. -/

namespace Sys2Proof.Machine

@[simp] theorem State.setBuf_buf (b : Memory) (s : State) : (s.setBuf b).buf = b := rfl
@[simp] theorem State.setBuf_cur (b : Memory) (s : State) : (s.setBuf b).cur = s.cur := rfl
@[simp] theorem State.setBuf_dstate (b : Memory) (s : State) : (s.setBuf b).dstate = s.dstate := rfl
@[simp] theorem State.setBuf_fault (b : Memory) (s : State) : (s.setBuf b).fault = s.fault := rfl
@[simp] theorem State.setBuf_params (b : Memory) (s : State) : (s.setBuf b).params = s.params := rfl
@[simp] theorem State.setBuf_port (b : Memory) (s : State) : (s.setBuf b).port = s.port := rfl
@[simp] theorem State.setBuf_responses (b : Memory) (s : State) : (s.setBuf b).responses = s.responses := rfl

@[simp] theorem State.setCur_buf (c : Nat) (s : State) : (s.setCur c).buf = s.buf := rfl
@[simp] theorem State.setCur_cur (c : Nat) (s : State) : (s.setCur c).cur = c := rfl
@[simp] theorem State.setCur_dstate (c : Nat) (s : State) : (s.setCur c).dstate = s.dstate := rfl
@[simp] theorem State.setCur_fault (c : Nat) (s : State) : (s.setCur c).fault = s.fault := rfl
@[simp] theorem State.setCur_params (c : Nat) (s : State) : (s.setCur c).params = s.params := rfl
@[simp] theorem State.setCur_port (c : Nat) (s : State) : (s.setCur c).port = s.port := rfl
@[simp] theorem State.setCur_responses (c : Nat) (s : State) : (s.setCur c).responses = s.responses := rfl

@[simp] theorem State.setDstate_buf (d : DecoderState) (s : State) : (s.setDstate d).buf = s.buf := rfl
@[simp] theorem State.setDstate_cur (d : DecoderState) (s : State) : (s.setDstate d).cur = s.cur := rfl
@[simp] theorem State.setDstate_dstate (d : DecoderState) (s : State) : (s.setDstate d).dstate = d := rfl
@[simp] theorem State.setDstate_fault (d : DecoderState) (s : State) : (s.setDstate d).fault = s.fault := rfl
@[simp] theorem State.setDstate_params (d : DecoderState) (s : State) : (s.setDstate d).params = s.params := rfl
@[simp] theorem State.setDstate_port (d : DecoderState) (s : State) : (s.setDstate d).port = s.port := rfl
@[simp] theorem State.setDstate_responses (d : DecoderState) (s : State) : (s.setDstate d).responses = s.responses := rfl

@[simp] theorem State.setFault_buf (c : FaultCode) (s : State) : (s.setFault c).buf = s.buf := rfl
@[simp] theorem State.setFault_cur (c : FaultCode) (s : State) : (s.setFault c).cur = s.cur := rfl
@[simp] theorem State.setFault_dstate (c : FaultCode) (s : State) : (s.setFault c).dstate = s.dstate := rfl
@[simp] theorem State.setFault_fault (c : FaultCode) (s : State) : (s.setFault c).fault = some c := rfl
@[simp] theorem State.setFault_params (c : FaultCode) (s : State) : (s.setFault c).params = s.params := rfl
@[simp] theorem State.setFault_port (c : FaultCode) (s : State) : (s.setFault c).port = s.port := rfl
@[simp] theorem State.setFault_responses (c : FaultCode) (s : State) : (s.setFault c).responses = s.responses := rfl

@[simp] theorem State.setPort_buf (p : List HostCommand) (s : State) : (s.setPort p).buf = s.buf := rfl
@[simp] theorem State.setPort_cur (p : List HostCommand) (s : State) : (s.setPort p).cur = s.cur := rfl
@[simp] theorem State.setPort_dstate (p : List HostCommand) (s : State) : (s.setPort p).dstate = s.dstate := rfl
@[simp] theorem State.setPort_fault (p : List HostCommand) (s : State) : (s.setPort p).fault = s.fault := rfl
@[simp] theorem State.setPort_params (p : List HostCommand) (s : State) : (s.setPort p).params = s.params := rfl
@[simp] theorem State.setPort_port (p : List HostCommand) (s : State) : (s.setPort p).port = p := rfl
@[simp] theorem State.setPort_responses (p : List HostCommand) (s : State) : (s.setPort p).responses = s.responses := rfl

@[simp] theorem State.answer_buf (r : Response) (s : State) : (s.answer r).buf = s.buf := rfl
@[simp] theorem State.answer_cur (r : Response) (s : State) : (s.answer r).cur = s.cur := rfl
@[simp] theorem State.answer_dstate (r : Response) (s : State) : (s.answer r).dstate = s.dstate := rfl
@[simp] theorem State.answer_fault (r : Response) (s : State) : (s.answer r).fault = s.fault := rfl
@[simp] theorem State.answer_params (r : Response) (s : State) : (s.answer r).params = s.params := rfl
@[simp] theorem State.answer_port (r : Response) (s : State) : (s.answer r).port = s.port := rfl
@[simp] theorem State.answer_responses (r : Response) (s : State) : (s.answer r).responses = s.responses ++ [r] := rfl

@[simp] theorem State.setBuf_setBuf (b b' : Memory) (s : State) : (s.setBuf b).setBuf b' = s.setBuf b' := rfl
@[simp] theorem State.setCur_setCur (c c' : Nat) (s : State) : (s.setCur c).setCur c' = s.setCur c' := rfl
@[simp] theorem State.setDstate_setDstate (d d' : DecoderState) (s : State) :
    (s.setDstate d).setDstate d' = s.setDstate d' := rfl
@[simp] theorem State.setPort_setPort (p p' : List HostCommand) (s : State) : (s.setPort p).setPort p' = s.setPort p' := rfl
@[simp] theorem State.setCur_self (s : State) : s.setCur s.cur = s := rfl

/-- Two states with equal fields are equal. -/
theorem State.eq_of_fields {s t : State} (hb : s.buf = t.buf) (hc : s.cur = t.cur) (hd : s.dstate = t.dstate)
    (hf : s.fault = t.fault) (hp : s.params = t.params) (hq : s.port = t.port) (hr : s.responses = t.responses) : s = t := by
  cases s; cases t; simp_all

end Sys2Proof.Machine
end

