-- ==== Sys2Proof/Laws/Ops.lean ====
section
/-! SUPPORT. What each shared operation can do, said once: responding, faulting, the prologues, the internal cursor
operations, the scan and the moves of the frame decoder. -/

namespace Sys2Proof.Machine

/-! ## Responding and faulting -/

@[simp] theorem respond_eq (r : Response) (s : State) : respond r s = .next (s.answer r) := rfl

@[simp] theorem raiseFault_eq (c : FaultCode) (s : State) :
    raiseFault c s = .next ((s.setFault c).answer (.faulted c)) := rfl

theorem prologue_of_fault {s : State} {c : FaultCode} (h : s.fault = some c) (body : State → Result) :
    prologue s body = .next (s.answer (.faulted c)) := by simp [prologue, h]

theorem prologue_of_no_fault {s : State} (h : s.fault = none) (body : State → Result) : prologue s body = body s := by
  simp [prologue, h]

theorem testPortPrologue_of_fault {s : State} {c : FaultCode} (h : s.fault = some c) (body : State → Result) :
    testPortPrologue s body = .next (s.answer (.faulted c)) := prologue_of_fault h _

theorem testPortPrologue_on {s : State} (h : s.fault = none) (hp : s.params.testPort = true) (body : State → Result) :
    testPortPrologue s body = body s := by simp [testPortPrologue, prologue, h, hp]

theorem testPortPrologue_off {s : State} (h : s.fault = none) (hp : s.params.testPort = false) (body : State → Result) :
    testPortPrologue s body = .next ((s.setFault .illegalCommand).answer (.faulted .illegalCommand)) := by
  simp [testPortPrologue, prologue, h, hp]

theorem rejectCommand_of_no_fault {s : State} (h : s.fault = none) :
    rejectCommand s = .next ((s.setFault .illegalCommand).answer (.faulted .illegalCommand)) := by
  simp [rejectCommand, prologue, h]

/-- What a prologue can do: answer `Faulted`, or run the body of a block without a fault. -/
theorem prologue_next {s t : State} {body : State → Result} (h : prologue s body = .next t) :
    (∃ c, s.fault = some c ∧ t = s.answer (.faulted c)) ∨ (s.fault = none ∧ body s = .next t) := by
  cases hf : s.fault with
  | some c => rw [prologue_of_fault hf] at h; cases h; exact .inl ⟨c, rfl, rfl⟩
  | none => rw [prologue_of_no_fault hf] at h; exact .inr ⟨rfl, h⟩

/-- What the prologue of a test-port command can do. -/
theorem testPortPrologue_next {s t : State} {body : State → Result} (h : testPortPrologue s body = .next t) :
    (∃ c, s.fault = some c ∧ t = s.answer (.faulted c)) ∨
    (s.fault = none ∧ s.params.testPort = false ∧
      t = (s.setFault .illegalCommand).answer (.faulted .illegalCommand)) ∨
    (s.fault = none ∧ s.params.testPort = true ∧ body s = .next t) := by
  obtain h | ⟨hf, h⟩ := prologue_next h
  · exact .inl h
  · cases hp : s.params.testPort with
    | true => exact .inr (.inr ⟨hf, rfl, by simpa [hp] using h⟩)
    | false => exact .inr (.inl ⟨hf, rfl, by simpa [hp, eq_comm] using h⟩)

@[simp] theorem andThen_next (s : State) (k : State → Result) : andThen (.next s) k = k s := rfl
@[simp] theorem andThen_fault (f : Fault) (k : State → Result) : andThen (.fault f) k = .fault f := rfl
@[simp] theorem andThen_refused (r : Refusal) (k : State → Result) : andThen (.refused r) k = .refused r := rfl

theorem andThen_eq_next {r : Result} {k : State → Result} {t : State} (h : andThen r k = .next t) :
    ∃ s, r = .next s ∧ k s = .next t := by
  cases r with
  | next s => exact ⟨s, rfl, h⟩
  | fault f => cases h
  | refused f => cases h

/-! ## The internal cursor operations -/

theorem peekThen_of_read {n : Nat} {s : State} {bits : List Bool} (h : memRead s.buf s.cur n = some bits)
    (k : List Bool → Result) : peekThen n s k = k bits := by simp [peekThen, h]

theorem peekThen_next {n : Nat} {s t : State} {k : List Bool → Result} (h : peekThen n s k = .next t) :
    ∃ bits, memRead s.buf s.cur n = some bits ∧ k bits = .next t := by
  unfold peekThen at h
  split at h
  · exact ⟨_, ‹_›, h⟩
  · cases h

theorem windowThen_of_window {s : State} {w : Window} (h : windowAt s.buf s.cur = some w) (k : Window → Result) :
    windowThen s k = k w := by simp [windowThen, h]

theorem windowThen_next {s t : State} {k : Window → Result} (h : windowThen s k = .next t) :
    ∃ w, windowAt s.buf s.cur = some w ∧ k w = .next t := by
  unfold windowThen at h
  split at h
  · exact ⟨_, ‹_›, h⟩
  · cases h

theorem advanceThen_of_le {n : Nat} {s : State} (h : n ≤ available s) (k : State → Result) :
    advanceThen n s k = k (s.setCur (s.cur + n)) := by simp [advanceThen, Nat.not_lt.mpr h]

theorem advanceThen_next {n : Nat} {s t : State} {k : State → Result} (h : advanceThen n s k = .next t) :
    n ≤ available s ∧ k (s.setCur (s.cur + n)) = .next t := by
  unfold advanceThen at h
  split at h
  · cases h
  · exact ⟨by omega, h⟩

/-! ## The moves of the frame decoder -/

theorem syncFound_next {kind : SyncKind} {w : Window} {s t : State} (h : syncFound kind w s = .next t) :
    64 ≤ available s ∧
      t = ((s.setCur (s.cur + 64)).setDstate (.aField { kind := kind, raw := w })).answer prPartial := by
  obtain ⟨ha, h⟩ := advanceThen_next h
  exact ⟨ha, by simpa [eq_comm] using h⟩

theorem syncFound_eq {kind : SyncKind} {w : Window} {s : State} (h : 64 ≤ available s) :
    syncFound kind w s = .next (((s.setCur (s.cur + 64)).setDstate (.aField { kind := kind, raw := w })).answer prPartial) :=
  advanceThen_of_le h _

theorem acceptAField_next {h : MACHeader} {s t : State} (hn : acceptAField h s = .next t) :
    ∃ a, windowAt s.buf s.cur = some a ∧ 64 ≤ available s ∧
      t = ((s.setCur (s.cur + 64)).setDstate (.bField h (tailOf a) (bLen h.sizeClass))).answer prPartial := by
  obtain ⟨a, ha, hn⟩ := windowThen_next hn
  obtain ⟨hv, hn⟩ := advanceThen_next hn
  exact ⟨a, ha, hv, by simpa [eq_comm] using hn⟩

theorem acceptAField_eq {h : MACHeader} {s : State} {a : Window} (ha : windowAt s.buf s.cur = some a)
    (hv : 64 ≤ available s) :
    acceptAField h s =
      .next (((s.setCur (s.cur + 64)).setDstate (.bField h (tailOf a) (bLen h.sizeClass))).answer prPartial) := by
  rw [acceptAField, windowThen_of_window ha, advanceThen_of_le hv]; rfl

theorem dropCandidate_next {s t : State} (h : dropCandidate s = .next t) :
    64 ≤ available s ∧ t = ((s.setCur (s.cur + 64)).setDstate .newMessage).answer prCrcError := by
  obtain ⟨ha, h⟩ := advanceThen_next h
  exact ⟨ha, by simpa [eq_comm] using h⟩

theorem dropCandidate_eq {s : State} (h : 64 ≤ available s) :
    dropCandidate s = .next (((s.setCur (s.cur + 64)).setDstate .newMessage).answer prCrcError) := advanceThen_of_le h _

@[simp] theorem completeFrame_eq (p : MACPacket) (s : State) :
    completeFrame p s = .next ((s.setDstate .newMessage).answer (prFull p)) := rfl

/-! ## DRAIN on a faulted block (assumption 17) -/

theorem drainAtMost_of_fault {s : State} {c : FaultCode} (h : s.fault = some c) (k : Nat) :
    drainAtMost k s = .next { s with responses := s.responses ++ List.replicate k (.faulted c) } := by
  induction k generalizing s with
  | zero => simp [drainAtMost]
  | succ k ih =>
    have hp : exec .parse s = .next (s.answer (.faulted c)) := by
      rw [exec, execParse]
      exact prologue_of_fault h _
    have hl : (s.answer (.faulted c)).lastIsMoreData = false := by simp [State.lastIsMoreData, isMoreData]
    have hk := ih (s := s.answer (.faulted c)) h
    simp only [drainAtMost, hp, andThen_next, hl, Bool.false_eq_true, if_false, hk]
    simp [State.answer, List.replicate_succ]

/-- A DRAIN of a faulted block ends at the bound: the state is kept and every PARSE answered `Faulted`. -/
theorem drain_of_fault {s : State} {c : FaultCode} (h : s.fault = some c) :
    drain s = .next { s with responses := s.responses ++ List.replicate (drainBound s) (.faulted c) } :=
  drainAtMost_of_fault h _

end Sys2Proof.Machine
end

