-- ==== Sys2Proof/Laws/Memory.lean ====
section
/-! SUPPORT. The stream memory: the canonical form, where a read is defined and what it gives, and that an append leaves
every earlier read as it was. -/

namespace Sys2Proof.Machine

/-! ## The canonical form (assumption 4) -/

/-- Every memory is in canonical form, so every operation keeps it. -/
theorem Memory.cells_wf (m : Memory) : Memory.wf m.cells := by
  apply List.ext_getElem
  · simp
  · intro i h₁ h₂
    simp [Memory.cells]

/-- The reset memory lists nothing. -/
theorem Memory.reset_cells : Memory.cells State.reset.buf = [] := rfl

/-- An append adds one cell, at the address `appendAddress` computes. -/
theorem Memory.cells_append (b : Byte) (m : Memory) :
    Memory.cells (appendByte b m) = m.cells ++ [(appendAddress m, b)] := by
  simp [Memory.cells, appendByte, appendAddress, List.zipIdx_append]

/-- Equal cells are equal memories. -/
theorem Memory.cells_injective {m m' : Memory} (h : m.cells = m'.cells) : m = m' := by
  have : m.cells.map Prod.snd = m'.cells.map Prod.snd := by rw [h]
  simpa [Memory.cells, Function.comp_def, List.zipIdx_map_fst] using this

/-! ## Reads of bytes and bits -/

@[simp] theorem storedBits_appendByte (b : Byte) (m : Memory) : storedBits (appendByte b m) = storedBits m + 8 := by
  simp [storedBits, appendByte]; omega

theorem storedBits_append (m n : Memory) : storedBits (m ++ n) = storedBits m + 8 * n.length := by
  simp [storedBits]; omega

theorem readByte_appendByte_same (b : Byte) (m : Memory) : readByte (appendByte b m) (appendAddress m) = some b := by
  simp [readByte, appendByte, appendAddress]

theorem readByte_appendByte_other {b : Byte} {m : Memory} {a : Nat} (h : a ≠ appendAddress m) :
    readByte (appendByte b m) a = readByte m a := by
  simp only [readByte, appendByte, appendAddress] at *
  rcases Nat.lt_or_ge a m.length with hl | hg
  · rw [List.getElem?_append_left hl]
  · rw [List.getElem?_eq_none (by simp; omega), List.getElem?_eq_none hg]

theorem readByte_append {m n : Memory} {a : Nat} (h : a < m.length) : readByte (m ++ n) a = readByte m a :=
  List.getElem?_append_left h

/-- A stream bit exists exactly at the stored positions. -/
theorem streamBit_isSome {m : Memory} {k : Nat} : (streamBit m k).isSome ↔ k < storedBits m := by
  simp [streamBit, readByte, storedBits]; omega

theorem streamBit_congr {m m' : Memory} {k : Nat} (h : readByte m (k / 8) = readByte m' (k / 8)) :
    streamBit m k = streamBit m' k := by simp [streamBit, h]

theorem streamBit_append {m n : Memory} {k : Nat} (h : k < storedBits m) : streamBit (m ++ n) k = streamBit m k :=
  streamBit_congr (readByte_append (by simp only [storedBits] at h; omega))

/-! ## MemRead -/

/-- `MemRead(pos, n)` is defined exactly for `pos + n ≤ 8 × |buf|`. -/
theorem memRead_isSome {m : Memory} {pos n : Nat} : (memRead m pos n).isSome ↔ pos + n ≤ storedBits m := by
  induction n generalizing pos with
  | zero => simp only [memRead]; split <;> simp_all
  | succ n ih =>
    have hb := streamBit_isSome (m := m) (k := pos)
    have hr := ih (pos := pos + 1)
    rw [memRead]
    cases h₁ : streamBit m pos <;> cases h₂ : memRead m (pos + 1) n <;> simp_all <;> omega

theorem memRead_of_le {m : Memory} {pos n : Nat} (h : pos + n ≤ storedBits m) : ∃ bits, memRead m pos n = some bits :=
  Option.isSome_iff_exists.mp (memRead_isSome.mpr h)

theorem memRead_le {m : Memory} {pos n : Nat} {bits : List Bool} (h : memRead m pos n = some bits) :
    pos + n ≤ storedBits m := memRead_isSome.mp (by simp [h])

theorem memRead_succ {m : Memory} {pos n : Nat} {bits : List Bool} (h : memRead m pos (n + 1) = some bits) :
    ∃ b bs, streamBit m pos = some b ∧ memRead m (pos + 1) n = some bs ∧ bits = b :: bs := by
  rw [memRead] at h
  split at h
  · exact ⟨_, _, ‹_›, ‹_›, by simpa [eq_comm] using h⟩
  · cases h

theorem memRead_length {m : Memory} {pos n : Nat} {bits : List Bool} (h : memRead m pos n = some bits) :
    bits.length = n := by
  induction n generalizing pos bits with
  | zero => simp only [memRead] at h; split at h <;> simp_all
  | succ n ih =>
    obtain ⟨b, bs, -, hr, rfl⟩ := memRead_succ h
    simp [ih hr]

/-- Bit `i` of a read is the stream bit at `pos + i`. -/
theorem memRead_getElem? {m : Memory} {pos n i : Nat} {bits : List Bool} (h : memRead m pos n = some bits) (hi : i < n) :
    bits[i]? = streamBit m (pos + i) := by
  induction n generalizing pos bits i with
  | zero => omega
  | succ n ih =>
    obtain ⟨b, bs, hb, hr, rfl⟩ := memRead_succ h
    cases i with
    | zero => simp [hb]
    | succ i => rw [List.getElem?_cons_succ, ih hr (by omega), show pos + 1 + i = pos + (i + 1) by omega]

/-- A read depends on the bytes it covers alone. -/
theorem memRead_congr {m m' : Memory} {pos n : Nat} (hl : m.length = m'.length)
    (h : ∀ a, pos / 8 ≤ a → readByte m a = readByte m' a) : memRead m pos n = memRead m' pos n := by
  induction n generalizing pos with
  | zero =>
    have : storedBits m = storedBits m' := by simp [storedBits, hl]
    simp [memRead, this]
  | succ n ih =>
    rw [memRead, memRead, streamBit_congr (h _ (Nat.le_refl _)), ih fun a ha => h a (by omega)]

/-- What is stored after an append reads as before. -/
theorem memRead_append {m n : Memory} {pos k : Nat} (h : pos + k ≤ storedBits m) :
    memRead (m ++ n) pos k = memRead m pos k := by
  induction k generalizing pos with
  | zero =>
    have : pos ≤ storedBits (m ++ n) := by rw [storedBits_append]; omega
    simp [memRead, this, show pos ≤ storedBits m by omega]
  | succ k ih => rw [memRead, memRead, streamBit_append (by omega), ih (by omega)]

/-- A read in two parts: the first `a` bits and the `b` bits after them. -/
theorem memRead_add {m : Memory} {pos a b : Nat} {xs ys : List Bool} (hx : memRead m pos a = some xs)
    (hy : memRead m (pos + a) b = some ys) : memRead m pos (a + b) = some (xs ++ ys) := by
  induction a generalizing pos xs with
  | zero =>
    simp only [memRead] at hx
    split at hx <;> simp_all
  | succ a ih =>
    obtain ⟨c, cs, hc, hr, rfl⟩ := memRead_succ hx
    have := ih hr (by simpa [Nat.add_assoc, Nat.add_comm 1 a] using hy)
    rw [show a + 1 + b = (a + b) + 1 by omega, memRead, hc, this]
    rfl

/-! ## uint and windows -/

theorem uint_foldl (acc : Nat) (bits : List Bool) :
    bits.foldl (fun acc b => 2 * acc + b.toNat) acc = acc * 2 ^ bits.length + uint bits := by
  induction bits generalizing acc with
  | nil => simp [uint]
  | cons b bs ih =>
    rw [uint, List.foldl_cons, List.foldl_cons, ih, ih (2 * 0 + b.toNat), List.length_cons, Nat.pow_succ]
    ring

/-- `uint(s) = s_0 · 2^(n−1) + uint(s_1 …)`. -/
theorem uint_cons (b : Bool) (bits : List Bool) : uint (b :: bits) = b.toNat * 2 ^ bits.length + uint bits := by
  rw [uint, List.foldl_cons, uint_foldl]; simp

theorem uint_append (xs ys : List Bool) : uint (xs ++ ys) = uint xs * 2 ^ ys.length + uint ys := by
  rw [uint, List.foldl_append, uint_foldl]; rfl

theorem uint_lt (bits : List Bool) : uint bits < 2 ^ bits.length := by
  induction bits with
  | nil => simp [uint]
  | cons b bs ih =>
    rw [uint_cons, List.length_cons, Nat.pow_succ]
    have : b.toNat ≤ 1 := Bool.toNat_le b
    nlinarith [Nat.two_pow_pos bs.length]

theorem windowAt_isSome {m : Memory} {pos : Nat} : (windowAt m pos).isSome ↔ pos + 64 ≤ storedBits m := by
  simpa [windowAt] using memRead_isSome (m := m) (pos := pos) (n := 64)

theorem windowAt_of_le {m : Memory} {pos : Nat} (h : pos + 64 ≤ storedBits m) : ∃ w, windowAt m pos = some w :=
  Option.isSome_iff_exists.mp (windowAt_isSome.mpr h)

theorem windowAt_le {m : Memory} {pos : Nat} {w : Window} (h : windowAt m pos = some w) : pos + 64 ≤ storedBits m :=
  windowAt_isSome.mp (by simp [h])

theorem windowAt_append {m n : Memory} {pos : Nat} (h : pos + 64 ≤ storedBits m) :
    windowAt (m ++ n) pos = windowAt m pos := by rw [windowAt, windowAt, memRead_append h]

theorem windowAt_congr {m m' : Memory} {pos : Nat} (hl : m.length = m'.length)
    (h : ∀ a, pos / 8 ≤ a → readByte m a = readByte m' a) : windowAt m pos = windowAt m' pos := by
  rw [windowAt, windowAt, memRead_congr hl h]

/-! ## The available bits -/

@[simp] theorem available_answer (r : Response) (s : State) : available (s.answer r) = available s := rfl
@[simp] theorem available_setDstate (d : DecoderState) (s : State) : available (s.setDstate d) = available s := rfl
@[simp] theorem available_setFault (c : FaultCode) (s : State) : available (s.setFault c) = available s := rfl
@[simp] theorem available_setPort (p : List HostCommand) (s : State) : available (s.setPort p) = available s := rfl

theorem available_setCur (c : Nat) (s : State) : available (s.setCur c) = storedBits s.buf - c := rfl

theorem cur_add_le_of_available {s : State} {n : Nat} (h : n ≤ available s) (hn : 0 < n) :
    s.cur + n ≤ storedBits s.buf := by simp only [available] at h; omega

theorem windowAt_cur_of_available {s : State} (h : 64 ≤ available s) : ∃ w, windowAt s.buf s.cur = some w :=
  windowAt_of_le (cur_add_le_of_available h (by omega))

end Sys2Proof.Machine
end

