-- ==== Sys2Proof/Laws/Parse.lean ====
section
/-! SUPPORT. What the scan and the three arms of PARSE can do. -/

namespace Sys2Proof.Machine

/-! ## The scan -/

/-- The window at `p` is there and matches no sync pattern. -/
abbrev Rejected (m : Memory) (p : Nat) : Prop := ∃ w, windowAt m p = some w ∧ classifySync w = none

/-- A scan without a match has rejected every stored window from `c` on, and stops at the first position whose window
is not stored. -/
theorem scan_exhausted {m : Memory} {fuel c e : Nat} (hf : storedBits m ≤ c + fuel + 63)
    (h : scan m fuel c = .exhausted e) :
    e = c + (storedBits m - c - 63) ∧ ∀ p, c ≤ p → p + 64 ≤ storedBits m → Rejected m p := by
  induction fuel generalizing c with
  | zero => simp only [scan, ScanResult.exhausted.injEq] at h; exact ⟨by omega, fun p _ _ => by omega⟩
  | succ fuel ih =>
    simp only [scan] at h
    split at h
    · cases h; exact ⟨by omega, fun p _ _ => by omega⟩
    · split at h
      · cases h
      · rename_i w hw
        split at h
        · cases h
        · rename_i hc
          obtain ⟨rfl, hr⟩ := ih (by omega) h
          refine ⟨by omega, fun p h₁ h₂ => ?_⟩
          rcases Nat.eq_or_lt_of_le h₁ with rfl | hlt
          · exact ⟨w, hw, hc⟩
          · exact hr p hlt h₂

/-- A scan that stops at a match has found the first one. -/
theorem scan_found {m : Memory} {fuel c p : Nat} {kind : SyncKind} {w : Window}
    (h : scan m fuel c = .found p kind w) :
    c ≤ p ∧ windowAt m p = some w ∧ classifySync w = some kind ∧ ∀ q, c ≤ q → q < p → Rejected m q := by
  induction fuel generalizing c with
  | zero => cases h
  | succ fuel ih =>
    simp only [scan] at h
    split at h
    · cases h
    · split at h
      · cases h
      · rename_i v hv
        split at h
        · rename_i hc
          cases h
          exact ⟨Nat.le_refl _, hv, hc, fun q _ _ => by omega⟩
        · rename_i hc
          obtain ⟨h₁, h₃, h₄, hr⟩ := ih h
          refine ⟨by omega, h₃, h₄, fun q hq₁ hq₂ => ?_⟩
          rcases Nat.eq_or_lt_of_le hq₁ with rfl | hlt
          · exact ⟨v, hv, hc⟩
          · exact hr q hlt hq₂

/-- A scan never asks for a window outside the stream. -/
theorem scan_ne_outside {m : Memory} {fuel c : Nat} : scan m fuel c ≠ .outside := by
  induction fuel generalizing c with
  | zero => simp [scan]
  | succ fuel ih =>
    simp only [scan]
    split
    · simp
    · obtain ⟨w, hw⟩ := windowAt_of_le (m := m) (pos := c) (by omega)
      simp only [hw]
      split
      · simp
      · exact ih

/-- Where every stored window from `c` on is rejected, the scan ends without a match. -/
theorem scan_of_rejected {m : Memory} {fuel c : Nat} (h : ∀ p, c ≤ p → p + 64 ≤ storedBits m → Rejected m p)
    (hf : storedBits m ≤ c + fuel + 63) : scan m fuel c = .exhausted (c + (storedBits m - c - 63)) := by
  cases hs : scan m fuel c with
  | outside => exact absurd hs scan_ne_outside
  | exhausted e => rw [(scan_exhausted hf hs).1]
  | found p kind w =>
    obtain ⟨hp, hw, hc, -⟩ := scan_found hs
    obtain ⟨v, hv, hn⟩ := h p hp (windowAt_le hw)
    simp_all

/-- Where the window at `p` is the first from `c` on that matches, the scan finds it. -/
theorem scan_of_first_match {m : Memory} {fuel c p : Nat} {kind : SyncKind} {w : Window} (hp : c ≤ p)
    (hw : windowAt m p = some w) (hc : classifySync w = some kind) (hr : ∀ q, c ≤ q → q < p → Rejected m q)
    (hf : storedBits m ≤ c + fuel + 63) : scan m fuel c = .found p kind w := by
  have hle := windowAt_le hw
  cases hs : scan m fuel c with
  | outside => exact absurd hs scan_ne_outside
  | exhausted e =>
    obtain ⟨v, hv, hn⟩ := (scan_exhausted hf hs).2 p hp hle
    simp_all
  | found q kind' w' =>
    obtain ⟨hq, hw', hc', hr'⟩ := scan_found hs
    rcases Nat.lt_trichotomy p q with hlt | rfl | hlt
    · obtain ⟨v, hv, hn⟩ := hr' p hp hlt
      simp_all
    · simp_all
    · obtain ⟨v, hv, hn⟩ := hr q hq hlt
      simp_all

theorem Rejected.append {m n : Memory} {p : Nat} (h : Rejected m p) : Rejected (m ++ n) p := by
  obtain ⟨w, hw, hc⟩ := h
  exact ⟨w, by rw [windowAt_append (windowAt_le hw), hw], hc⟩

/-! ## The arms of PARSE -/

/-- ParseNewMessage answers, with a match or with none. -/
theorem parseNewMessage_cases (s : State) :
    ((∀ p, s.cur ≤ p → p + 64 ≤ storedBits s.buf → Rejected s.buf p) ∧
      parseNewMessage s = .next ((s.setCur (s.cur + (available s - 63))).answer prMoreData)) ∨
    (∃ p kind w, s.cur ≤ p ∧ windowAt s.buf p = some w ∧ classifySync w = some kind ∧
      (∀ q, s.cur ≤ q → q < p → Rejected s.buf q) ∧
      parseNewMessage s =
        .next (((s.setCur (p + 64)).setDstate (.aField { kind := kind, raw := w })).answer prPartial)) := by
  cases h : scan s.buf (storedBits s.buf) s.cur with
  | outside => exact absurd h scan_ne_outside
  | exhausted e =>
    obtain ⟨rfl, hr⟩ := scan_exhausted (by omega) h
    exact .inl ⟨hr, by simp [parseNewMessage, h, available]⟩
  | found p kind w =>
    obtain ⟨hp, hw, hc, hr⟩ := scan_found h
    have hle := windowAt_le hw
    have ha : 64 ≤ available (s.setCur p) := by rw [available_setCur]; omega
    exact .inr ⟨p, kind, w, hp, hw, hc, hr, by simpa [parseNewMessage, h] using syncFound_eq ha⟩

/-- ParseAField answers: it waits, drops the candidate, or accepts the A-field. -/
theorem parseAField_cases (s : State) :
    (available s < 64 ∧ parseAField s = .next (s.answer prMoreData)) ∨
    (∃ a, 64 ≤ available s ∧ windowAt s.buf s.cur = some a ∧ crc16 a ≠ 0#16 ∧
      parseAField s = .next (((s.setCur (s.cur + 64)).setDstate .newMessage).answer prCrcError)) ∨
    (∃ a, 64 ≤ available s ∧ windowAt s.buf s.cur = some a ∧ crc16 a = 0#16 ∧
      parseAField s = .next (((s.setCur (s.cur + 64)).setDstate
        (.bField (headerOf a) (tailOf a) (bLen (headerOf a).sizeClass))).answer prPartial)) := by
  rcases Nat.lt_or_ge (available s) 64 with hlt | hge
  · exact .inl ⟨hlt, by simp [parseAField, hlt]⟩
  · obtain ⟨a, ha⟩ := windowAt_cur_of_available hge
    have hstart : parseAField s = if crc16 a ≠ 0x0000#16 then dropCandidate s else acceptAField (headerOf a) s := by
      rw [parseAField, if_neg (by omega), windowThen_of_window ha]
    by_cases hc : crc16 a = 0#16
    · exact .inr (.inr ⟨a, hge, ha, hc, by rw [hstart, if_neg (by simpa using hc), acceptAField_eq ha hge]⟩)
    · exact .inr (.inl ⟨a, hge, ha, hc, by rw [hstart, if_pos hc, dropCandidate_eq hge]⟩)

/-- ParseBField answers: it waits, completes without a payload, or completes with one. -/
theorem parseBField_cases (h : MACHeader) (t : Tail) (len : BitVec 7) (s : State) :
    (available s < len.toNat ∧ parseBField h t len s = .next (s.answer prMoreData)) ∨
    (len = 0#7 ∧ parseBField h t len s =
      .next ((s.setDstate .newMessage).answer (prFull { header := h, tail := t, payload := none }))) ∨
    (∃ bits, len ≠ 0#7 ∧ len.toNat ≤ available s ∧ memRead s.buf s.cur len.toNat = some bits ∧
      parseBField h t len s = .next (((s.setCur (s.cur + len.toNat)).setDstate .newMessage).answer
        (prFull { header := h, tail := t, payload := some bits }))) := by
  rcases Nat.lt_or_ge (available s) len.toNat with hlt | hge
  · exact .inl ⟨hlt, by simp [parseBField, hlt]⟩
  · by_cases hz : len = 0#7
    · exact .inr (.inl ⟨hz, by rw [parseBField, if_neg (by omega), if_pos hz]; rfl⟩)
    · have hpos : 0 < len.toNat := by
        rcases Nat.eq_zero_or_pos len.toNat with h0 | h0
        · exact absurd (BitVec.eq_of_toNat_eq (by simpa using h0)) hz
        · exact h0
      obtain ⟨bits, hb⟩ := memRead_of_le (cur_add_le_of_available hge hpos)
      refine .inr (.inr ⟨bits, hz, hge, hb, ?_⟩)
      rw [parseBField, if_neg (by omega), if_neg hz, peekThen_of_read hb, advanceThen_of_le hge]
      rfl

end Sys2Proof.Machine
end

