-- ==== Sys2Proof/Laws/Exec.lean ====
section
/-! SUPPORT. Each instruction as its prologue and its body, so that a proof opens the prologue once and never unfolds the
dispatch. -/

namespace Sys2Proof.Machine

theorem exec_reset (s : State) :
    exec .reset s = prologue s fun s => respond .ok (((s.setBuf []).setCur 0).setDstate .newMessage) := rfl

theorem exec_extend (b : Byte) (s : State) :
    exec (.extend b) s = prologue s fun s =>
      if overflows s then raiseFault .bufferOverflow s else respond .ok (s.setBuf (appendByte b s.buf)) := rfl

theorem exec_parse (s : State) :
    exec .parse s = prologue s fun s =>
      match s.dstate with
      | .newMessage => parseNewMessage s
      | .aField _ => parseAField s
      | .bField header tail length => parseBField header tail length s := rfl

theorem exec_status (s : State) : exec .status s = prologue s fun s => respond (.status (statusOf s)) s := rfl

theorem exec_avail (s : State) : exec .avail s = testPortPrologue s fun s => respond (.count (available s)) s := rfl

theorem exec_peek (n : BitVec 12) (s : State) :
    exec (.peek n) s = testPortPrologue s fun s =>
      if available s < countOf n then respond .insufficient s
      else peekThen (countOf n) s fun bits => respond (.bits bits) s := rfl

theorem exec_nextwin (s : State) :
    exec .nextwin s = testPortPrologue s fun s =>
      if available s < 64 then respond .insufficient s
      else windowThen s fun w => respond (.window w) (s.setCur (s.cur + 1)) := rfl

theorem exec_advance (n : BitVec 12) (s : State) :
    exec (.advance n) s = testPortPrologue s fun s =>
      if available s < countOf n then raiseFault .cursorOverrun s
      else respond .ok (s.setCur (s.cur + countOf n)) := rfl

theorem exec_crc (din : BitVec 64) (s : State) :
    exec (.crc din) s = testPortPrologue s fun s => respond (.crc (crc16 din) (crcValid din)) s := rfl

theorem exec_reservedOp0 (arg : BitVec 12) (s : State) : exec (.reservedOp0 arg) s = rejectCommand s := rfl

theorem exec_reservedOpsABEF (op : BitVec 4) (arg : BitVec 12) (s : State) :
    exec (.reservedOpsABEF op arg) s = rejectCommand s := rfl

theorem exec_reservedOpsCDEF (op : BitVec 4) (arg : BitVec 12) (s : State) :
    exec (.reservedOpsCDEF op arg) s = rejectCommand s := rfl

theorem exec_fpSync (lead : BitVec 40) (s : State) :
    exec (.fpSync lead) s = prologue s (syncFound .fixed (lead ++ Config.fpSync)) := rfl

theorem exec_ppSync (lead : BitVec 40) (s : State) :
    exec (.ppSync lead) s = prologue s (syncFound .portable (lead ++ Config.ppSync)) := rfl

/-- A header row is the accepted A-field of its header. -/
theorem exec_headerRow (tailId : BitVec 3) (q1 q2 : BitVec 1) (s : State) :
    exec (.sizeClass000 tailId q1 q2) s = prologue s (acceptAField ⟨tailId, q1, 0b000#3, q2⟩) ∧
    exec (.sizeClass001 tailId q1 q2) s = prologue s (acceptAField ⟨tailId, q1, 0b001#3, q2⟩) ∧
    exec (.sizeClass010 tailId q1 q2) s = prologue s (acceptAField ⟨tailId, q1, 0b010#3, q2⟩) ∧
    exec (.sizeClass011 tailId q1 q2) s = prologue s (acceptAField ⟨tailId, q1, 0b011#3, q2⟩) ∧
    exec (.sizeClass100 tailId q1 q2) s = prologue s (acceptAField ⟨tailId, q1, 0b100#3, q2⟩) ∧
    exec (.sizeClass101 tailId q1 q2) s = prologue s (acceptAField ⟨tailId, q1, 0b101#3, q2⟩) ∧
    exec (.sizeClass110 tailId q1 q2) s = prologue s (acceptAField ⟨tailId, q1, 0b110#3, q2⟩) ∧
    exec (.sizeClass111 tailId q1 q2) s = prologue s (acceptAField ⟨tailId, q1, 0b111#3, q2⟩) :=
  ⟨rfl, rfl, rfl, rfl, rfl, rfl, rfl, rfl⟩

/-! ## What an instruction can do -/

/-- A window that ends in a pattern is of its kind, whatever its lead. -/
theorem classifySync_append_fp (lead : BitVec 40) : classifySync (lead ++ Config.fpSync) = some .fixed := by
  have h : BitVec.extractLsb' 0 24 (lead ++ Config.fpSync) = Config.fpSync := extractLsb'_append_low lead Config.fpSync
  unfold classifySync
  rw [if_pos h]

theorem classifySync_append_pp (lead : BitVec 40) : classifySync (lead ++ Config.ppSync) = some .portable := by
  have h : BitVec.extractLsb' 0 24 (lead ++ Config.ppSync) = Config.ppSync := extractLsb'_append_low lead Config.ppSync
  unfold classifySync
  rw [if_neg (by rw [h]; decide), if_pos h]

theorem consistent_newMessage : DecoderState.newMessage.Consistent := rfl

theorem consistent_aField {k : SyncKind} {w : Window} (h : classifySync w = some k) :
    (DecoderState.aField { kind := k, raw := w }).Consistent := by simp [DecoderState.Consistent, DecoderState.consistent, h]

theorem consistent_bField (h : MACHeader) (t : Tail) : (DecoderState.bField h t (bLen h.sizeClass)).Consistent := by
  simp [DecoderState.Consistent, DecoderState.consistent]

theorem withinCapacity_iff {s : State} : s.WithinCapacity ↔ ∀ c, s.params.capacity = some c → retained s ≤ c := by
  cases h : s.params.capacity <;> simp [State.WithinCapacity, State.withinCapacity, h]

/-- What the next state of an instruction can be: it only answers, it records a fault, it resets, it extends, it moves the
cursor within the stream, or it is a move of the frame decoder. -/
inductive Moved (i : Instr) (s : State) : State → Prop where
  | answered (r : Response) : Moved i s (s.answer r)
  | faulted (c : FaultCode) (h : s.fault = none)
      (hi : i ≠ .reset ∧ i ≠ .parse ∧ i ≠ .status ∧ encodeCommand i ≠ none) :
      Moved i s ((s.setFault c).answer (.faulted c))
  | reset (hi : i = .reset) (h : s.fault = none) :
      Moved i s ((((s.setBuf []).setCur 0).setDstate .newMessage).answer .ok)
  | extended (b : Byte) (hi : i = .extend b) (h : s.fault = none) (ho : overflows s = false) :
      Moved i s ((s.setBuf (appendByte b s.buf)).answer .ok)
  | advanced (c : Nat) (r : Response) (h : s.fault = none) (hc : s.cur ≤ c) (hs : c ≤ max s.cur (storedBits s.buf))
      (hi : i = .parse ∨ i = .nextwin ∨ ∃ n, i = .advance n) :
      Moved i s ((s.setCur c).answer r)
  | decoded (c : Nat) (d : DecoderState) (r : Response) (h : s.fault = none) (hc : s.cur ≤ c)
      (hs : c ≤ max s.cur (storedBits s.buf)) (hd : d.Consistent) (hi : i = .parse ∨ encodeCommand i = none) :
      Moved i s (((s.setCur c).setDstate d).answer r)

theorem acceptAField_moved {i : Instr} {h : MACHeader} {s t : State} (hf : s.fault = none)
    (hi : i = .parse ∨ encodeCommand i = none) (hn : acceptAField h s = .next t) : Moved i s t := by
  obtain ⟨a, _, ha, rfl⟩ := acceptAField_next hn
  exact .decoded _ _ _ hf (by omega) (by simp only [available] at ha; omega) (consistent_bField _ _) hi

theorem parseArm_moved {s t : State} (hf : s.fault = none)
    (h : (match s.dstate with
      | .newMessage => parseNewMessage s
      | .aField _ => parseAField s
      | .bField header tail length => parseBField header tail length s) = .next t) : Moved .parse s t := by
  split at h
  · rcases parseNewMessage_cases s with ⟨_, e⟩ | ⟨p, k, w, hp, hw, hc, _, e⟩ <;> rw [e] at h <;> cases h
    · exact .advanced _ _ hf (by omega) (by simp only [available]; omega) (.inl rfl)
    · have := windowAt_le hw
      exact .decoded _ _ _ hf (by omega) (by omega) (consistent_aField hc) (.inl rfl)
  · rcases parseAField_cases s with ⟨_, e⟩ | ⟨a, ha, _, _, e⟩ | ⟨a, ha, _, _, e⟩ <;> rw [e] at h <;> cases h
    · exact .answered _
    · exact .decoded _ _ _ hf (by omega) (by simp only [available] at ha; omega) consistent_newMessage (.inl rfl)
    · exact .decoded _ _ _ hf (by omega) (by simp only [available] at ha; omega) (consistent_bField _ _) (.inl rfl)
  · rename_i hd tl len _
    rcases parseBField_cases hd tl len s with ⟨_, e⟩ | ⟨_, e⟩ | ⟨a, _, ha, _, e⟩ <;> rw [e] at h <;> cases h
    · exact .answered _
    · exact .decoded s.cur .newMessage _ hf (by omega) (by omega) consistent_newMessage (.inl rfl)
    · exact .decoded _ _ _ hf (by omega) (by simp only [available] at ha; omega) consistent_newMessage (.inl rfl)

/-- Every next state of an instruction is one of those of `Moved`. -/
theorem exec_moved {i : Instr} {s t : State} (h : exec i s = .next t) : Moved i s t := by
  have pro : ∀ body : State → Result, prologue s body = .next t →
      (s.fault = none → body s = .next t → Moved i s t) → Moved i s t := by
    intro body h k
    rcases prologue_next h with ⟨c, _, rfl⟩ | ⟨hf, hb⟩
    · exact .answered _
    · exact k hf hb
  have tpro : (i ≠ .reset ∧ i ≠ .parse ∧ i ≠ .status ∧ encodeCommand i ≠ none) → ∀ body : State → Result, testPortPrologue s body = .next t →
      (s.fault = none → body s = .next t → Moved i s t) → Moved i s t := by
    intro hi body h k
    rcases testPortPrologue_next h with ⟨c, _, rfl⟩ | ⟨hf, _, rfl⟩ | ⟨hf, _, hb⟩
    · exact .answered _
    · exact .faulted _ hf hi
    · exact k hf hb
  have rej : (i ≠ .reset ∧ i ≠ .parse ∧ i ≠ .status ∧ encodeCommand i ≠ none) → rejectCommand s = .next t →
      Moved i s t := fun hi h => pro _ h fun hf h => by cases h; exact .faulted _ hf hi
  cases i with
  | reset => rw [exec_reset] at h; exact pro _ h fun hf h => by cases h; exact .reset rfl hf
  | extend b =>
    rw [exec_extend] at h
    refine pro _ h fun hf h => ?_
    split at h <;> cases h
    · exact .faulted _ hf (by simp [encodeCommand, encode, commandOf])
    · exact .extended b rfl hf (by simp_all)
  | parse => rw [exec_parse] at h; exact pro _ h fun hf h => parseArm_moved hf h
  | status => exact pro _ h fun hf h => by cases h; exact .answered _
  | avail => exact tpro (by simp [encodeCommand, encode, commandOf]) _ h fun hf h => by cases h; exact .answered _
  | crc din => exact tpro (by simp [encodeCommand, encode, commandOf]) _ h fun hf h => by cases h; exact .answered _
  | peek n =>
    rw [exec_peek] at h
    refine tpro (by simp [encodeCommand, encode, commandOf]) _ h fun hf h => ?_
    split at h
    · cases h; exact .answered _
    · obtain ⟨bits, _, hb⟩ := peekThen_next h
      cases hb; exact .answered _
  | nextwin =>
    rw [exec_nextwin] at h
    refine tpro (by simp [encodeCommand, encode, commandOf]) _ h fun hf h => ?_
    split at h
    · cases h; exact .answered _
    · obtain ⟨w, hw, hb⟩ := windowThen_next h
      cases hb
      have := windowAt_le hw
      exact .advanced _ _ hf (by omega) (by omega) (.inr (.inl rfl))
  | advance n =>
    rw [exec_advance] at h
    refine tpro (by simp [encodeCommand, encode, commandOf]) _ h fun hf h => ?_
    split at h <;> cases h
    · exact .faulted _ hf (by simp [encodeCommand, encode, commandOf])
    · rename_i ha
      exact .advanced _ _ hf (by omega) (by simp only [available] at ha; omega) (.inr (.inr ⟨n, rfl⟩))
  | reservedOp0 a => exact rej (by simp [encodeCommand, encode, commandOf]) h
  | reservedOpsABEF a b => exact rej (by simp [encodeCommand, encode, commandOf]) h
  | reservedOpsCDEF a b => exact rej (by simp [encodeCommand, encode, commandOf]) h
  | fpSync lead =>
    refine pro _ h fun hf h => ?_
    obtain ⟨ha, rfl⟩ := syncFound_next h
    exact .decoded _ _ _ hf (by omega) (by simp only [available] at ha; omega)
      (consistent_aField (classifySync_append_fp lead)) (.inr rfl)
  | ppSync lead =>
    refine pro _ h fun hf h => ?_
    obtain ⟨ha, rfl⟩ := syncFound_next h
    exact .decoded _ _ _ hf (by omega) (by simp only [available] at ha; omega)
      (consistent_aField (classifySync_append_pp lead)) (.inr rfl)
  | _ => exact pro _ h fun hf h => acceptAField_moved hf (.inr rfl) h
end Sys2Proof.Machine
end

