-- ==== Sys2Proof/Laws/PerInstr.lean ====
section
/-! SUPPORT. Per instruction: the bits of its encoding match its row's mask and match words in spec/opcode_table.json. -/

namespace Sys2Proof.Laws.TableRow

/-- The bits a well-formed instruction encodes to match its row of spec/opcode_table.json. -/
def Statement (i : Instr) : Prop :=
  i.wellFormed = true → (encode i).bits &&& (tableRow i).1 = (tableRow i).2

/-- A command word under a mask of its selector field alone. -/
theorem command_and_mask {op m : BitVec 4} {arg : BitVec 12} {mask row : Nat} (hm : (m ++ 0#12).toNat = mask)
    (hr : ((op &&& m) ++ 0#12).toNat = row) : (commandOf op arg).bits &&& mask = row := by
  have hb : (commandOf op arg).bits = (op ++ arg).toNat := by simp [commandOf, Encoded.bits]
  rw [hb, ← hm, ← hr, ← BitVec.toNat_and]
  congr 1
  ext k hk
  simp only [BitVec.getElem_and, BitVec.getElem_append]
  split <;> simp

/-- A window under the mask of its pattern. -/
theorem window_and_mask (lead : BitVec 40) (p : BitVec 24) : (lead ++ p).toNat &&& 0xFFFFFF = p.toNat := by
  rw [show 0xFFFFFF = 2 ^ 24 - 1 from rfl, Nat.and_two_pow_sub_one_eq_mod, BitVec.toNat_append, Nat.shiftLeft_eq,
    Nat.mul_comm, ← Nat.two_pow_add_eq_or_of_lt p.isLt, Nat.mul_add_mod, Nat.mod_eq_of_lt p.isLt]

theorem reset : Statement .reset := by intro _; decide

theorem extend (b : Byte) : Statement (.extend b) := by intro _; revert b; decide

theorem parse : Statement .parse := by intro _; decide

theorem status : Statement .status := by intro _; decide

theorem avail : Statement .avail := by intro _; decide

theorem peek (n : BitVec 12) : Statement (.peek n) :=
  fun _ => command_and_mask (m := 0xF#4) rfl rfl

theorem nextwin : Statement .nextwin := by intro _; decide

theorem advance (n : BitVec 12) : Statement (.advance n) :=
  fun _ => command_and_mask (m := 0xF#4) rfl rfl

theorem crc (din : BitVec 64) : Statement (.crc din) := by
  intro _
  change ((0x9#4 ++ 0#12 : BitVec 16).toNat + din.toNat <<< 16) &&& (2 ^ 16 - 1) = 0x9000
  rw [Nat.and_two_pow_sub_one_eq_mod, Nat.shiftLeft_eq, Nat.add_mul_mod_self_right]
  decide

theorem reservedOp0 (arg : BitVec 12) : Statement (.reservedOp0 arg) :=
  fun _ => command_and_mask (m := 0xF#4) rfl rfl

theorem reservedOpsABEF (op : BitVec 4) (arg : BitVec 12) : Statement (.reservedOpsABEF op arg) := by
  intro h
  have hop : op &&& 0xA#4 = 0xA#4 := by
    change (op == 0xA#4 || op == 0xB#4 || op == 0xE#4 || op == 0xF#4) = true at h
    clear arg
    revert op
    decide
  exact command_and_mask (m := 0xA#4) rfl (by rw [hop]; rfl)

theorem reservedOpsCDEF (op : BitVec 4) (arg : BitVec 12) : Statement (.reservedOpsCDEF op arg) := by
  intro h
  have hop : op &&& 0xC#4 = 0xC#4 := by
    change (op == 0xC#4 || op == 0xD#4) = true at h
    clear arg
    revert op
    decide
  exact command_and_mask (m := 0xC#4) rfl (by rw [hop]; rfl)

theorem fpSync (lead : BitVec 40) : Statement (.fpSync lead) :=
  fun _ => window_and_mask lead _

theorem ppSync (lead : BitVec 40) : Statement (.ppSync lead) :=
  fun _ => window_and_mask lead _

theorem sizeClass000 (tailId : BitVec 3) (q1 : BitVec 1) (q2 : BitVec 1) : Statement (.sizeClass000 tailId q1 q2) := by intro _; revert tailId q1 q2; decide

theorem sizeClass001 (tailId : BitVec 3) (q1 : BitVec 1) (q2 : BitVec 1) : Statement (.sizeClass001 tailId q1 q2) := by intro _; revert tailId q1 q2; decide

theorem sizeClass010 (tailId : BitVec 3) (q1 : BitVec 1) (q2 : BitVec 1) : Statement (.sizeClass010 tailId q1 q2) := by intro _; revert tailId q1 q2; decide

theorem sizeClass011 (tailId : BitVec 3) (q1 : BitVec 1) (q2 : BitVec 1) : Statement (.sizeClass011 tailId q1 q2) := by intro _; revert tailId q1 q2; decide

theorem sizeClass100 (tailId : BitVec 3) (q1 : BitVec 1) (q2 : BitVec 1) : Statement (.sizeClass100 tailId q1 q2) := by intro _; revert tailId q1 q2; decide

theorem sizeClass101 (tailId : BitVec 3) (q1 : BitVec 1) (q2 : BitVec 1) : Statement (.sizeClass101 tailId q1 q2) := by intro _; revert tailId q1 q2; decide

theorem sizeClass110 (tailId : BitVec 3) (q1 : BitVec 1) (q2 : BitVec 1) : Statement (.sizeClass110 tailId q1 q2) := by intro _; revert tailId q1 q2; decide

theorem sizeClass111 (tailId : BitVec 3) (q1 : BitVec 1) (q2 : BitVec 1) : Statement (.sizeClass111 tailId q1 q2) := by intro _; revert tailId q1 q2; decide

end Sys2Proof.Laws.TableRow
end

