-- ==== Sys2Proof/Tests/Slice0.lean ====
section
/-! SUPPORT. Tests on fixed values, their expected results taken from the encodings of 30_encoding.md and the vectors of
95_test_vectors.md, and a witness that the hypotheses of each statement can be met. -/

namespace Sys2Proof.Tests

open Sys2Proof.Machine

set_option maxRecDepth 20000

/-! ## Helpers -/

/-- The `k` bytes of a hex number, the first byte first. -/
def bytesOf (k n : Nat) : List Byte := (List.range k).map fun j => BitVec.ofNat 8 (n >>> (8 * (k - 1 - j)))

/-- A block with these stored bytes and this cursor, the test port on. -/
def bench (buf : List Byte) (cur : Nat) (d : DecoderState := .newMessage) (capacity : Option Nat := none) : State :=
  { State.reset with buf := buf, cur := cur, dstate := d, params := { Config.params with testPort := true, capacity := capacity } }

/-- The next state, if there is one. -/
def nextOf (r : Result) : Option State :=
  match r with
  | .next t => some t
  | .fault _ => none
  | .refused _ => none

/-- The state after the host issues this one command word. -/
def issue (cmd : CmdWord) (s : State) (din : BitVec 64 := 0#64) : Option State :=
  nextOf (step (s.setPort [{ cmd := cmd, din := din }]))

/-- The last response and the cursor. -/
def seen (s : State) : Option Response × Nat := (s.responses.getLast?, s.cur)

/-- `B9` of 95_test_vectors.md L2.1. -/
def b9 : List Byte := bytesOf 9 0x123456789ABCDEF00F

/-- The block of 95_test_vectors.md P3 after RESET and its first chunk: a Portable frame at bit 3. -/
def oddFrame : State := bench (bytesOf 20 0x00000000000AA2CEB755C22446688AA082468ACF) 0

/-- The block of 95_test_vectors.md P2 once its bytes are there: a Fixed frame of class 0b111. -/
def noSlotFrame : State := bench (bytesOf 16 0x0000000000AAE98A7D6311223344550E) 0

/-- A sync record of the Fixed part with zero lead bits. -/
def fixedSync : SyncWord := { kind := .fixed, raw := 0x0000000000AAE98A#64 }

/-- A block in AField with this one A-field stored. -/
def withAField (a : Nat) : State := bench (bytesOf 8 a) 0 (.aField fixedSync)

/-- The tail `1122334455`. -/
def tail12345 : Tail := { b0 := 0x11#8, b1 := 0x22#8, b2 := 0x33#8, b3 := 0x44#8, b4 := 0x55#8 }

/-- The header byte 0x08, class 0b100. -/
def halfSlot : MACHeader := { tailId := 0#3, q1 := 0#1, sizeClass := 0b100#3, q2 := 0#1 }

/-- The block of vector V-FD-8 after its last byte: BField with ten bits to come, the cursor at bit 128. -/
def halfSlotFrame : State :=
  bench (bytesOf 18 0x0000000000AAE98A3FD8112233445508ABC0) 128 (.bField halfSlot tail12345 10#7)

/-- A block that has recorded IllegalCommand. -/
def faultedBlock : State := (bench b9 3).setFault .illegalCommand

/-! ## Well-formedness -/

theorem test_wellFormed_refuses_abef_selector : (Instr.reservedOpsABEF 0xC#4 0#12).wellFormed = false := by decide
theorem test_wellFormed_refuses_cdef_selector : (Instr.reservedOpsCDEF 0xE#4 0#12).wellFormed = false := by decide
theorem test_wellFormed_reserved_rows :
    (Instr.reservedOpsABEF 0xF#4 7#12).wellFormed = true ∧ (Instr.reservedOpsCDEF 0xD#4 7#12).wellFormed = true := by decide

/-! ## Decoding: words written out from 30_encoding.md R71, R81, R83, R84 -/

theorem test_decode_reset : decodeTableWord 16 0b0001000000000000 = some .reset := by decide
theorem test_decode_extend : decodeTableWord 16 0b0010000010100101 = some (.extend 0xA5#8) := by decide
theorem test_decode_parse : decodeTableWord 16 0b0011000000000000 = some .parse := by decide
theorem test_decode_status : decodeTableWord 16 0b0100000000000000 = some .status := by decide
theorem test_decode_avail : decodeTableWord 16 0b0101000000000000 = some .avail := by decide
theorem test_decode_peek : decodeTableWord 16 0b0110111111111110 = some (.peek 4094#12) := by decide
theorem test_decode_nextwin : decodeTableWord 16 0b0111000000000000 = some .nextwin := by decide
theorem test_decode_advance : decodeTableWord 16 0b1000100000000001 = some (.advance 2049#12) := by decide
theorem test_decode_crc : decodeTableWord 80 0x01020304050607089000 = some (.crc 0x0102030405060708#64) := by decide
theorem test_decode_reservedOp0 : decodeTableWord 16 0b0000000000000101 = some (.reservedOp0 5#12) := by decide
theorem test_decode_reservedOpsABEF :
    decodeTableWord 16 0b1010000000000001 = some (.reservedOpsABEF 0xA#4 1#12) ∧
    decodeTableWord 16 0b1011000000000001 = some (.reservedOpsABEF 0xB#4 1#12) ∧
    decodeTableWord 16 0b1110000000000001 = some (.reservedOpsABEF 0xE#4 1#12) ∧
    decodeTableWord 16 0b1111000000000001 = some (.reservedOpsABEF 0xF#4 1#12) := by decide
theorem test_decode_reservedOpsCDEF :
    decodeTableWord 16 0b1100000000000001 = some (.reservedOpsCDEF 0xC#4 1#12) ∧
    decodeTableWord 16 0b1101000000000001 = some (.reservedOpsCDEF 0xD#4 1#12) := by decide
theorem test_decode_fpSync : decodeTableWord 64 0x0123456789AAE98A = some (.fpSync 0x0123456789#40) := by decide
theorem test_decode_ppSync : decodeTableWord 64 0xFFFFFFFFFF551675 = some (.ppSync 0xFFFFFFFFFF#40) := by decide
theorem test_decode_sizeClass000 : decodeTableWord 8 0b00100001 = some (.sizeClass000 1#3 0#1 1#1) := by decide
/-- Vector V-FM-1, header 0x12. -/
theorem test_decode_sizeClass001 : decodeTableWord 8 0b00010010 = some (.sizeClass001 0#3 1#1 0#1) := by decide
/-- Vector V-FM-1, header 0xA5. -/
theorem test_decode_sizeClass010 : decodeTableWord 8 0b10100101 = some (.sizeClass010 5#3 0#1 1#1) := by decide
theorem test_decode_sizeClass011 : decodeTableWord 8 0b11000110 = some (.sizeClass011 6#3 0#1 0#1) := by decide
theorem test_decode_sizeClass100 : decodeTableWord 8 0b01111000 = some (.sizeClass100 3#3 1#1 0#1) := by decide
/-- Vector V-FM-1, header 0xEB. -/
theorem test_decode_sizeClass101 : decodeTableWord 8 0b11101011 = some (.sizeClass101 7#3 0#1 1#1) := by decide
theorem test_decode_sizeClass110 : decodeTableWord 8 0b10011101 = some (.sizeClass110 4#3 1#1 1#1) := by decide
/-- Vector V-FM-1, header 0xFF. -/
theorem test_decode_sizeClass111 : decodeTableWord 8 0b11111111 = some (.sizeClass111 7#3 1#1 1#1) := by decide
/-- Vectors V-FX-3 and V-FX-4: a non-zero must-be-zero bit. -/
theorem test_decode_refuses_mustBeZero :
    decodeTableWord 16 0x3001 = none ∧ decodeTableWord 16 0x2100 = none ∧ decodeTableWord 16 0x1800 = none := by decide
/-- Vector V-FM-2: the windows that match no pattern. -/
theorem test_decode_refuses_other_windows :
    decodeTableWord 64 0x0000000000AAE98B = none ∧ decodeTableWord 64 0xAAE98A0000000000 = none ∧
    decodeTableWord 64 0x00000000AAE98A00 = none := by decide

/-! ## Single steps -/

/-- Vector V-CT-3. -/
theorem test_reset_discards_the_frame :
    (issue 0x1000#16 (bench b9 64 (.aField fixedSync))).map (fun t => (t.buf, t.cur, t.dstate, t.responses)) =
      some ([], 0, .newMessage, [.ok]) := by decide
/-- Vector V-FX-10. -/
theorem test_reset_does_not_clear_a_fault :
    issue 0x1000#16 faultedBlock = some (faultedBlock.answer (.faulted .illegalCommand)) := by decide
/-- Vectors V-BC-1 and V-BC-18. -/
theorem test_extend_appends :
    (issue 0x2012#16 State.reset).map (fun t => (t.buf, seen t)) = some ([0x12#8], some .ok, 0) ∧
    (issue 0x2056#16 (bench (bytesOf 2 0x1234) 16)).map (fun t => (t.buf, available t)) =
      some (bytesOf 3 0x123456, 8) := by decide
/-- Vectors V-FX-8 and V-FX-9. -/
theorem test_extend_overflow :
    (issue 0x2056#16 (bench (bytesOf 2 0x1234) 0 .newMessage (some 2))).map (fun t => (t.buf, t.fault, seen t)) =
      some (bytesOf 2 0x1234, some .bufferOverflow, some (.faulted .bufferOverflow), 0) ∧
    (issue 0x2056#16 (bench (bytesOf 2 0x1234) 8 .newMessage (some 2))).map (fun t => (t.buf, t.fault)) =
      some (bytesOf 3 0x123456, none) := by decide
/-- Program P3, PARSE 1: windows 0 to 2 are rejected, the Portable pattern is found at bit 3; vectors V-FD-2 and V-FD-3:
the consuming scan. -/
theorem test_parse_scans :
    (issue 0x3000#16 oddFrame).map (fun t => (t.dstate, seen t)) =
      some (.aField { kind := .portable, raw := 0x0000000000551675#64 }, some prPartial, 67) ∧
    (issue 0x3000#16 (bench (bytesOf 7 0) 0)).map seen = some (some prMoreData, 0) ∧
    (issue 0x3000#16 (bench (bytesOf 8 0) 0)).map seen = some (some prMoreData, 1) := by decide
/-- Vector V-FD-8: the ten payload bits 1010101111 across a byte boundary, and the packet record; vector V-FD-7: a CRC
failure drops the candidate. -/
theorem test_parse_ends_frames :
    (issue 0x3000#16 halfSlotFrame).map (fun t => (t.dstate, t.cur, t.events.map fun e =>
        match e with
        | .packet p => some (packetRecord p)
        | .crcError => none)) =
      some (.newMessage, 138, [some
        { tailId := 0#3, q1 := 0#1, sizeClass := 0b100#3, q2 := 0#1, tail := 0x1122334455#40,
          payloadPresent := 1#1, payloadLen := 10#7, payload := 0x2AF }]) ∧
    (issue 0x3000#16 (withAField 0x0000000000AAE98A)).map (fun t => (t.dstate, seen t)) =
      some (.newMessage, some prCrcError, 64) := by decide
/-- Vector V-CT-1. -/
theorem test_status_in_aField :
    (issue 0x4000#16 (bench (bytesOf 8 0xFFFFFFFFFFAAE98A) 64 (.aField { kind := .fixed, raw := 0xFFFFFFFFFFAAE98A#64 }))).map
      seen = some (some (.status
        { tag := 0b01#2, cur := 64, storedBits := 64, fault := none,
          fields := .aField 0#1 0xFFFFFFFFFFAAE98A#64 }), 64) := by decide
/-- Vector V-CT-2. -/
theorem test_status_in_bField :
    (issue 0x4000#16 { halfSlotFrame with buf := halfSlotFrame.buf.take 16 }).map seen =
      some (some (.status
        { tag := 0b10#2, cur := 128, storedBits := 128, fault := none,
          fields := .bField 0x08#8 0x1122334455#40 10#7 }), 128) := by decide
/-- Vector V-BC-13. -/
theorem test_avail_counts : (issue 0x5000#16 (bench (bytesOf 2 0x1234) 3)).map seen = some (some (.count 13), 3) := by decide
/-- Vector V-FX-5. -/
theorem test_avail_without_test_port :
    issue 0x5000#16 State.reset =
      some ((State.reset.setFault .illegalCommand).answer (.faulted .illegalCommand)) := by decide
/-- Vector V-BC-4. -/
theorem test_peek_is_msb_first :
    (issue 0x600C#16 (bench (bytesOf 3 0x123456) 5)).map seen =
      some (some (.bits [false, true, false, false, false, true, true, false, true, false, false, false]), 5) := by
  decide
/-- Vectors V-BC-5 and V-BC-7. -/
theorem test_peek_bounds :
    (issue 0x6000#16 (bench b9 0)).map seen = some (some (.bits []), 0) ∧
    (issue 0x6049#16 (bench b9 0)).map seen = some (some .insufficient, 0) := by decide
/-- Vectors V-BC-10 and V-BC-11. -/
theorem test_nextwin_misaligned :
    (issue 0x7000#16 (bench b9 7)).map seen = some (some (.window 0x1A2B3C4D5E6F7807#64), 8) ∧
    (issue 0x7000#16 (bench b9 8)).map seen = some (some (.window 0x3456789ABCDEF00F#64), 9) := by decide
/-- Vector V-BC-12. -/
theorem test_nextwin_insufficient : (issue 0x7000#16 (bench b9 9)).map seen = some (some .insufficient, 9) := by
  decide
/-- Vectors V-BC-15 and V-BC-16. -/
theorem test_advance_to_the_end :
    (issue 0x8000#16 (bench (bytesOf 2 0x1234) 8)).map seen = some (some .ok, 8) ∧
    (issue 0x8008#16 (bench (bytesOf 2 0x1234) 8)).map seen = some (some .ok, 16) := by decide
/-- Vector V-BC-17. -/
theorem test_advance_overrun :
    (issue 0x8009#16 (bench (bytesOf 2 0x1234) 8)).map (fun t => (t.fault, seen t)) =
      some (some .cursorOverrun, some (.faulted .cursorOverrun), 8) := by decide
/-- Vector V-CRC-1: a seed with its top bit set, and the smallest valid block. -/
theorem test_crc_values :
    (issue 0x9000#16 (bench [] 0) 0x8000000000000000#64).map seen = some (some (.crc 0xDA5B#16 false), 0) ∧
    (issue 0x9000#16 (bench [] 0) 0x0000000000000001#64).map seen = some (some (.crc 0x0000#16 true), 0) ∧
    crc16 0x0102030405060708#64 = 0x9536#16 ∧ crc16 0xFFFFFFFFFFFFFFFF#64 = 0x9392#16 := by
  decide
/-- Vector V-FX-1. -/
theorem test_reserved_op_0 :
    issue 0x0000#16 State.reset =
      some ((State.reset.setFault .illegalCommand).answer (.faulted .illegalCommand)) := by decide
/-- Vector V-FX-2. -/
theorem test_reserved_op_A :
    (issue 0xA000#16 State.reset).map (·.fault) = some (some .illegalCommand) := by decide
/-- 30_encoding.md R73. -/
theorem test_reserved_op_C :
    (issue 0xCFFF#16 State.reset).map (·.fault) = some (some .illegalCommand) := by decide
/-- Vector V-FX-3: a must-be-zero bit raises IllegalCommand. -/
theorem test_must_be_zero_step :
    issue 0x3001#16 State.reset =
      some ((State.reset.setFault .illegalCommand).answer (.faulted .illegalCommand)) := by decide
/-- Vector V-FX-12: an earlier fault outranks IllegalCommand. -/
theorem test_earlier_fault_outranks :
    (issue 0xB000#16 ((bench b9 3).setFault .cursorOverrun)).map (fun t => (t.fault, seen t)) =
      some (some .cursorOverrun, some (.faulted .cursorOverrun), 3) := by decide
/-- Vector V-FD-4, through the placed table word. -/
theorem test_fpSync_runs_as_the_first_step :
    (nextOf (step (State.reset.withFetchWord 64 0xFFFFFFFFFFAAE98A))).map (fun t => (t.dstate, seen t)) =
      some (.aField { kind := .fixed, raw := 0xFFFFFFFFFFAAE98A#64 }, some prPartial, 64) := by decide
/-- Vector V-FD-5, through the placed table word. -/
theorem test_ppSync_runs_as_the_first_step :
    (nextOf (step (State.reset.withFetchWord 64 0x0000000000551675))).map (fun t => (t.dstate, seen t)) =
      some (.aField { kind := .portable, raw := 0x0000000000551675#64 }, some prPartial, 64) := by decide

/-- The state after the step that reads the A-field placed for a header byte: its header fields and length. -/
def placedHeader (h : Nat) : Option (BitVec 3 × BitVec 1 × BitVec 3 × BitVec 1 × BitVec 7) :=
  match nextOf (step (State.reset.withFetchWord 8 h)) with
  | some t =>
    match t.dstate with
    | .bField m _ len => some (m.tailId, m.q1, m.sizeClass, m.q2, len)
    | _ => none
  | none => none

/-- Vector V-FM-1 and 95_test_vectors.md L1.2, one header byte of each class. -/
theorem test_sizeClass000_length : placedHeader 0x01 = some (0#3, 0#1, 0b000#3, 1#1, 40#7) := by decide
theorem test_sizeClass001_length : placedHeader 0x12 = some (0#3, 1#1, 0b001#3, 0#1, 40#7) := by decide
theorem test_sizeClass010_length : placedHeader 0xA5 = some (5#3, 0#1, 0b010#3, 1#1, 100#7) := by decide
theorem test_sizeClass011_length : placedHeader 0x06 = some (0#3, 0#1, 0b011#3, 0#1, 40#7) := by decide
theorem test_sizeClass100_length : placedHeader 0x08 = some (0#3, 0#1, 0b100#3, 0#1, 10#7) := by decide
theorem test_sizeClass101_length : placedHeader 0x5A = some (2#3, 1#1, 0b101#3, 0#1, 40#7) := by decide
theorem test_sizeClass110_length : placedHeader 0x0C = some (0#3, 0#1, 0b110#3, 0#1, 40#7) := by decide
theorem test_sizeClass111_length : placedHeader 0xFF = some (7#3, 1#1, 0b111#3, 1#1, 0#7) := by decide
/-- Vectors V-FM-3 and V-FD-8, PARSE 2: the split of a valid A-field. -/
theorem test_sizeClass100_records_the_tail :
    (nextOf (exec (.sizeClass100 0#3 0#1 0#1) (withAField 0x3FD8112233445508))).map (fun t => (t.dstate, seen t)) =
      some (.bField halfSlot tail12345 10#7, some prPartial, 64) := by decide
/-- Vector V-CRC-3. -/
theorem test_crc_seeds : crcSeed 0x11223344550E#48 = 0x7D63#16 ∧ crcSeed 0xFFFFFFFFFFFF#48 = 0x15D8#16 := by decide

/-- 30_encoding.md R79: one EXTEND per byte, a comment, a case-insensitive mnemonic; EXTENDHEX; the block of CRC. -/
theorem test_assembler :
    assembleLine Config.params ['e', 'x', 't', 'e', 'n', 'd', ' ', '0', 'x', '1', '2', ',', ' ', '5', '2', ' ', ';', 'P'] =
      some [.command { cmd := 0x2012#16, din := 0#64 }, .command { cmd := 0x2034#16, din := 0#64 }] ∧
    assembleLine Config.params ['E', 'X', 'T', 'E', 'N', 'D', 'H', 'E', 'X', ' ', 'A', 'a', 'E', '9'] =
      some [.command { cmd := 0x20AA#16, din := 0#64 }, .command { cmd := 0x20E9#16, din := 0#64 }] ∧
    assembleLine Config.params ['P', 'E', 'E', 'K', ' ', '4', '0', '9', '6'] = none ∧
    assembleLine Config.params ['P', 'e', 'e', 'k', ' ', '4', '0', '9', '5'] =
      some [.command { cmd := 0x6FFF#16, din := 0#64 }] ∧
    assembleLine { Config.params with maxPeek := 100 } ['P', 'E', 'E', 'K', ' ', '1', '0', '1'] = none := by decide

/-- 60_exceptions.md R213: the other instance keeps its state. -/
theorem test_instances :
    (match stepInstance 1 [oddFrame, State.reset.setPort [{ cmd := 0x2012#16, din := 0#64 }]] with
      | .next sys => sys.map (·.buf)
      | _ => []) = [oddFrame.buf, [0x12#8]] := by decide

/-! ## Witnesses: the hypotheses of each statement, met by one state and its operands -/

/-- A result is known by its next state. -/
theorem of_nextOf {r : Result} {t : State} (h : nextOf r = some t) : r = .next t := by
  cases r <;> cases h
  rfl

/-- The first four windows of `oddFrame`, from 95_test_vectors.md P3. -/
theorem oddFrame_windows :
    windowAt oddFrame.buf 0 = some 0x00000000000AA2CE#64 ∧ windowAt oddFrame.buf 1 = some 0x000000000015459D#64 ∧
    windowAt oddFrame.buf 2 = some 0x00000000002A8B3A#64 ∧ windowAt oddFrame.buf 3 = some 0x0000000000551675#64 := by
  decide

/-- `b9` with the byte its cursor has passed set to zero. -/
def b9Consumed : List Byte := 0x00#8 :: b9.drop 1

/-- The three states of 95_test_vectors.md P2 after its PARSE 1, 2 and 3. -/
def noSlotSync : State := { noSlotFrame with cur := 64, dstate := .aField fixedSync, responses := [prPartial] }
def noSlotHeader : State :=
  { noSlotFrame with
    cur := 128, dstate := .bField { halfSlot with sizeClass := 0b111#3 } tail12345 0#7, responses := [prPartial, prPartial] }
def noSlotPacket : MACPacket := { header := { halfSlot with sizeClass := 0b111#3 }, tail := tail12345, payload := none }
def noSlotDone : State :=
  { noSlotFrame with cur := 128, responses := [prPartial, prPartial, prFull noSlotPacket] }

/-- The four states of vector V-FD-8 with all its bytes there. -/
def halfSlotStart : State := { halfSlotFrame with cur := 0, dstate := .newMessage }
def halfSlotSync : State := { halfSlotFrame with cur := 64, dstate := .aField fixedSync, responses := [prPartial] }
def halfSlotHeader : State := { halfSlotFrame with responses := [prPartial, prPartial] }
def halfSlotPacket : MACPacket :=
  { header := halfSlot, tail := tail12345, payload := some [true, false, true, false, true, false, true, true, true, true] }
def halfSlotDone : State :=
  { halfSlotFrame with
    cur := 138, dstate := .newMessage, responses := [prPartial, prPartial, prFull halfSlotPacket] }

theorem noSlot_run :
    exec .parse noSlotFrame = .next noSlotSync ∧ exec .parse noSlotSync = .next noSlotHeader ∧
    exec .parse noSlotHeader = .next noSlotDone :=
  ⟨of_nextOf (by decide), of_nextOf (by decide), of_nextOf (by decide)⟩

theorem halfSlot_run :
    exec .parse halfSlotStart = .next halfSlotSync ∧ exec .parse halfSlotSync = .next halfSlotHeader ∧
    exec .parse halfSlotHeader = .next halfSlotDone :=
  ⟨of_nextOf (by decide), of_nextOf (by decide), of_nextOf (by decide)⟩

theorem witness_ResetLeavesTheSpecValues :
    (bench b9 3).fault = none ∧ exec .reset (bench b9 3) = .next ((bench [] 0).answer .ok) :=
  ⟨rfl, of_nextOf (by decide)⟩

theorem witness_StepKeepsTheInvariant :
    (noSlotFrame.setPort [parseCommand]).Inv ∧ step (noSlotFrame.setPort [parseCommand]) = .next noSlotSync :=
  ⟨by decide, of_nextOf (by decide)⟩

theorem witness_DecodeOfEncodeIsIdentity : (Instr.reservedOpsABEF 0xF#4 0xFFF#12).wellFormed = true := by decide

theorem witness_EncodeOfDecodeIsTheWord :
    decode (.command { cmd := 0x9000#16, din := 1#64 }) = .ok (.crc 1#64) ∧
    decode (.command { cmd := 0x3000#16, din := 1#64 }) = .ok .parse ∧
    decode (.window 0x0000000000551675#64) = .ok (.ppSync 0#40) ∧
    decode (.header 0xFF#8) = .ok (.sizeClass111 7#3 1#1 1#1) := ⟨rfl, rfl, rfl, rfl⟩

theorem witness_NonZeroReservedBitIsIllegal :
    (State.reset.setPort [{ cmd := 0x3001#16, din := 0#64 }]).fault = none ∧
    decode (.command { cmd := 0x3001#16, din := 0#64 }) = .error .mustBeZero ∧
    decode (.command { cmd := 0x2100#16, din := 0#64 }) = .error .mustBeZero := ⟨rfl, rfl, rfl⟩

theorem witness_StepRunsTheDecodedCommand :
    (State.reset.setPort [parseCommand]).port = [parseCommand] ∧ decode (.command parseCommand) = .ok .parse := ⟨rfl, rfl⟩

theorem witness_IdleStepHoldsTheState : State.reset.port = [] := rfl

theorem witness_EveryCommandAnswersOnce :
    ((bench b9 72).setPort [parseCommand]).CursorInStream ∧
    ((bench b9 72).setPort [parseCommand]).port = [parseCommand] := ⟨by decide, rfl⟩

theorem witness_SyncMatchRunsThePatternRow :
    oddFrame.fault = none ∧ oddFrame.dstate = .newMessage ∧ oddFrame.cur ≤ 3 ∧
    windowAt oddFrame.buf 3 = some 0x0000000000551675#64 ∧
    decode (.window 0x0000000000551675#64) = .ok (.ppSync 0#40) ∧
    ∀ q, oddFrame.cur ≤ q → q < 3 → ∃ v, windowAt oddFrame.buf q = some v ∧ decode (.window v) = .error .noSyncPattern := by
  obtain ⟨h0, h1, h2, h3⟩ := oddFrame_windows
  refine ⟨rfl, rfl, by decide, h3, rfl, fun q _ hq => ?_⟩
  obtain rfl | rfl | rfl : q = 0 ∨ q = 1 ∨ q = 2 := by omega
  · exact ⟨_, h0, rfl⟩
  · exact ⟨_, h1, rfl⟩
  · exact ⟨_, h2, rfl⟩

theorem witness_ValidAFieldRunsTheHeaderRow :
    noSlotSync.fault = none ∧ noSlotSync.dstate = .aField fixedSync ∧
    windowAt noSlotSync.buf noSlotSync.cur = some 0x7D6311223344550E#64 ∧ crc16 0x7D6311223344550E#64 = 0x0000#16 ∧
    decode (.header (headerByteOf 0x7D6311223344550E#64)) = .ok (.sizeClass111 0#3 0#1 0#1) :=
  ⟨rfl, rfl, by decide, by decide, rfl⟩

theorem witness_FaultedBlockIsTerminal :
    faultedBlock.fault = some .illegalCommand ∧ (faultedBlock.setPort [parseCommand]).port = [parseCommand] ∧
    (faultedBlock.setPort [parseCommand]).fault = some .illegalCommand := ⟨rfl, rfl, rfl⟩

/-- Each of the three faults is raised by some command. -/
theorem witness_WhichCommandsFault :
    exec (.reservedOp0 0#12) (bench b9 3) =
      .next (((bench b9 3).setFault .illegalCommand).answer (.faulted .illegalCommand)) ∧
    exec (.advance 70#12) (bench b9 3) =
      .next (((bench b9 3).setFault .cursorOverrun).answer (.faulted .cursorOverrun)) ∧
    exec (.extend 0#8) (bench b9 3 .newMessage (some 9)) =
      .next (((bench b9 3 .newMessage (some 9)).setFault .bufferOverflow).answer (.faulted .bufferOverflow)) :=
  ⟨of_nextOf (by decide), of_nextOf (by decide), of_nextOf (by decide)⟩

theorem witness_FaultingCommandWritesOnlyTheFault :
    (bench b9 3).fault = none ∧
    exec (.advance 70#12) (bench b9 3) =
      .next (((bench b9 3).setFault .cursorOverrun).answer (.faulted .cursorOverrun)) :=
  ⟨rfl, of_nextOf (by decide)⟩

theorem witness_ReservedSelectorsAreIllegal : State.reset.fault = none := rfl

theorem witness_ResetCommandRule : (bench b9 3).fault = none ∧ faultedBlock.fault = some .illegalCommand := ⟨rfl, rfl⟩

theorem witness_StatusCommandRule : halfSlotFrame.fault = none := rfl

/-- The boundary of R64: two retained bytes are allowed, three are not. -/
theorem witness_ExtendCommandRule :
    (∀ c, (bench (bytesOf 2 0x1234) 8 .newMessage (some 2)).params.capacity = some c →
      (bench (bytesOf 2 0x1234) 8 .newMessage (some 2)).buf.length + 1 -
        (bench (bytesOf 2 0x1234) 8 .newMessage (some 2)).cur / 8 ≤ c) ∧
    2 < (bench (bytesOf 2 0x1234) 0 .newMessage (some 2)).buf.length + 1 -
      (bench (bytesOf 2 0x1234) 0 .newMessage (some 2)).cur / 8 := by
  refine ⟨fun c hc => ?_, by decide⟩
  cases hc
  decide

theorem witness_ExtendSequenceAppends : State.reset.fault = none ∧ State.reset.params.capacity = none := ⟨rfl, rfl⟩

theorem witness_AvailCommandRule :
    ((bench b9 3).fault = none ∧ (bench b9 3).params.testPort = true ∧
      exec .reset (bench b9 3) = .next ((bench [] 0).answer .ok)) ∧
    State.reset.fault = none ∧ State.reset.params.testPort = false :=
  ⟨⟨rfl, rfl, of_nextOf (by decide)⟩, rfl, rfl⟩

/-- One bit too many, and every remaining bit. -/
theorem witness_PeekCommandRule :
    ((bench b9 3).fault = none ∧ (bench b9 3).params.testPort = true) ∧
    8 * (bench b9 3).buf.length - (bench b9 3).cur < (70#12).toNat ∧
    (bench b9 3).cur + (69#12).toNat ≤ 8 * (bench b9 3).buf.length ∧
    State.reset.fault = none ∧ State.reset.params.testPort = false :=
  ⟨⟨rfl, rfl⟩, by decide, by decide, rfl, rfl⟩

/-- 63 and 64 available bits. -/
theorem witness_NextwinCommandRule :
    ((bench b9 9).fault = none ∧ (bench b9 9).params.testPort = true) ∧
    8 * (bench b9 9).buf.length - (bench b9 9).cur < 64 ∧
    (bench b9 8).cur + 64 ≤ 8 * (bench b9 8).buf.length ∧
    State.reset.fault = none ∧ State.reset.params.testPort = false :=
  ⟨⟨rfl, rfl⟩, by decide, by decide, rfl, rfl⟩

/-- All the available bits, and one more. -/
theorem witness_AdvanceCommandRule :
    ((bench b9 3).fault = none ∧ (bench b9 3).params.testPort = true) ∧
    (69#12).toNat ≤ 8 * (bench b9 3).buf.length - (bench b9 3).cur ∧
    8 * (bench b9 3).buf.length - (bench b9 3).cur < (70#12).toNat ∧
    State.reset.fault = none ∧ State.reset.params.testPort = false :=
  ⟨⟨rfl, rfl⟩, by decide, by decide, rfl, rfl⟩

theorem witness_CrcCommandRule :
    ((bench b9 3).fault = none ∧ (bench b9 3).params.testPort = true) ∧
    State.reset.fault = none ∧ State.reset.params.testPort = false := ⟨⟨rfl, rfl⟩, rfl, rfl⟩

/-- PEEK and ADVANCE with exactly as many bits as a smaller `P_MAX_PEEK` carries. -/
def narrowBench (cmd : CmdWord) : State :=
  { bench b9 3 with
    params := { testPort := true, capacity := none, maxPeek := 2 }, port := [{ cmd := cmd, din := 0#64 }] }

theorem witness_CountsStayWithinMaxPeek :
    carries (narrowBench 0x6002#16).params { cmd := 0x6002#16, din := 0#64 } = true ∧
    step (narrowBench 0x6002#16) = .next (((narrowBench 0x6002#16).setPort []).answer (.bits [true, false])) ∧
    carries (narrowBench 0x8002#16).params { cmd := 0x8002#16, din := 0#64 } = true ∧
    opField 0x8002#16 = 0x8#4 ∧
    step (narrowBench 0x8002#16) = .next ((((narrowBench 0x8002#16).setPort []).setCur 5).answer .ok) :=
  ⟨by decide, of_nextOf (by decide), by decide, by decide, of_nextOf (by decide)⟩

theorem test_carries_bounds_the_count :
    carries { Config.params with maxPeek := 2 } { cmd := 0x6003#16, din := 0#64 } = false ∧
    carries { Config.params with maxPeek := 2 } { cmd := 0x2003#16, din := 0#64 } = true := by decide

theorem witness_ReadOnlyCommandsRepeat :
    (bench b9 3).fault = none ∧ exec .avail (bench b9 3) = .next ((bench b9 3).answer (.count 69)) ∧
    ((bench b9 3).answer (.count 69)).fault = none := ⟨rfl, of_nextOf (by decide), rfl⟩

/-- A command that answers, and one that faults. -/
theorem witness_FrameOfCommandsThatMoveNothing :
    exec .avail (bench b9 3) = .next ((bench b9 3).answer (.count 69)) ∧
    exec .avail State.reset = .next ((State.reset.setFault .illegalCommand).answer (.faulted .illegalCommand)) :=
  ⟨of_nextOf (by decide), of_nextOf (by decide)⟩

/-- A command that moves the cursor, and one that faults. -/
theorem witness_FrameOfCursorCommands :
    exec .nextwin (bench b9 8) = .next ((bench b9 9).answer (.window 0x3456789ABCDEF00F#64)) ∧
    exec (.advance 70#12) (bench b9 3) =
      .next (((bench b9 3).setFault .cursorOverrun).answer (.faulted .cursorOverrun)) :=
  ⟨of_nextOf (by decide), of_nextOf (by decide)⟩

/-- A byte that is stored, and one that is not. -/
theorem witness_FrameOfExtend :
    exec (.extend 0x56#8) (bench (bytesOf 2 0x1234) 3) = .next ((bench (bytesOf 3 0x123456) 3).answer .ok) ∧
    exec (.extend 0x56#8) (bench (bytesOf 2 0x1234) 3 .newMessage (some 2)) =
      .next (((bench (bytesOf 2 0x1234) 3 .newMessage (some 2)).setFault .bufferOverflow).answer
        (.faulted .bufferOverflow)) :=
  ⟨of_nextOf (by decide), of_nextOf (by decide)⟩

theorem witness_FrameOfReset :
    exec .reset (bench b9 3) = .next ((bench [] 0).answer .ok) ∧
    exec .reset faultedBlock = .next (faultedBlock.answer (.faulted .illegalCommand)) ∧ faultedBlock.fault ≠ none :=
  ⟨of_nextOf (by decide), of_nextOf (by decide), by decide⟩

theorem witness_FrameOfDecoderMoves :
    exec .parse noSlotFrame = .next noSlotSync ∧ encodeCommand (.fpSync 0#40) = none ∧
    exec (.fpSync 0#40) noSlotFrame = .next noSlotSync :=
  ⟨noSlot_run.1, rfl, of_nextOf (by decide)⟩

theorem witness_CursorNeverMovesBackward : Instr.parse ≠ .reset ∧ exec .parse noSlotFrame = .next noSlotSync :=
  ⟨by decide, noSlot_run.1⟩

/-- Exactly 64 bits. -/
theorem witness_SyncRowsComplete : (bench (bytesOf 8 0) 0).fault = none ∧ 64 ≤ available (bench (bytesOf 8 0) 0) :=
  ⟨rfl, by decide⟩

theorem witness_HeaderRowsComplete :
    (withAField 0x3FD8112233445508).fault = none ∧
    windowAt (withAField 0x3FD8112233445508).buf (withAField 0x3FD8112233445508).cur = some 0x3FD8112233445508#64 :=
  ⟨rfl, by decide⟩

/-- Vector V-CRC-3. -/
theorem witness_SeedExistsAndIsUnique : crc16 (0x7D63#16 ++ 0x11223344550E#48) = 0x0000#16 := by decide

/-- A stored bit, and the first position past the stored ones. -/
theorem witness_StreamBitIsMostSignificantFirst : readByte b9 (71 / 8) = some 0x0F#8 ∧ 8 * b9.length ≤ 72 := by decide

/-- Vector V-BC-10: the last byte of the most misaligned window. -/
theorem witness_WindowBytesAreReads :
    windowAt b9 7 = some 0x1A2B3C4D5E6F7807#64 ∧
    memRead b9 (7 + 8 * 7) 8 = some [false, false, false, false, false, true, true, true] := by decide

/-- Vector V-BC-11: the last aligned window. -/
theorem witness_AlignedWindowIsTheBytes : windowAt b9 (8 * 1) = some 0x3456789ABCDEF00F#64 := by decide

theorem witness_ConsumedBytesAreUnobservable :
    SameFrom (bench b9 8).cur (bench b9 8).buf b9Consumed ∧
    exec .nextwin (bench b9 8) = .next ((bench b9 9).answer (.window 0x3456789ABCDEF00F#64)) := by
  refine ⟨⟨by decide, fun a ha => ?_⟩, of_nextOf (by decide)⟩
  cases a with
  | zero => exact absurd ha (by decide)
  | succ a => rfl

/-- 63 bits in NewMessage and in AField; ten bits for a payload of ten. -/
theorem witness_ParseWithFewerThan64Bits :
    (available (bench b9 9) < 64 ∧ (bench b9 9).fault = none ∧ (bench b9 9).dstate = .newMessage) ∧
    (available (bench b9 9 (.aField fixedSync)) < 64 ∧ (bench b9 9 (.aField fixedSync)).dstate = .aField fixedSync) ∧
    (bench b9 62 (.bField halfSlot tail12345 10#7)).dstate = .bField halfSlot tail12345 10#7 ∧
    (10#7).toNat ≤ available (bench b9 62 (.bField halfSlot tail12345 10#7)) ∧
    available (bench b9 62 (.bField halfSlot tail12345 10#7)) < 64 :=
  ⟨⟨by decide, rfl, rfl⟩, ⟨by decide, rfl⟩, rfl, by decide, by decide⟩

/-- Vectors V-FD-2 and V-FD-3: 63 bits and fewer, and exactly one window. -/
theorem witness_ScanWithoutMatchConsumes :
    (bench (bytesOf 8 0) 0).fault = none ∧ (bench (bytesOf 8 0) 0).dstate = .newMessage ∧
    ¬available (bench (bytesOf 8 0) 0) < 64 ∧ available (bench (bytesOf 7 0) 0) < 64 ∧
    ∀ p w, (bench (bytesOf 8 0) 0).cur ≤ p → windowAt (bench (bytesOf 8 0) 0).buf p = some w →
      w.extractLsb' 0 24 ≠ 0xAAE98A#24 ∧ w.extractLsb' 0 24 ≠ 0x551675#24 := by
  refine ⟨rfl, rfl, by decide, by decide, fun p w _ hw => ?_⟩
  have hp : p + 64 ≤ 64 := windowAt_le hw
  obtain rfl : p = 0 := by omega
  have h0 : windowAt (bench (bytesOf 8 0) 0).buf 0 = some 0#64 := by decide
  cases h0.symm.trans hw
  decide

theorem witness_ScanStopsAtTheFirstMatch :
    oddFrame.fault = none ∧ oddFrame.dstate = .newMessage ∧ oddFrame.cur ≤ 3 ∧
    windowAt oddFrame.buf 3 = some 0x0000000000551675#64 ∧
    (0x0000000000551675#64 : Window).extractLsb' 0 24 = 0x551675#24 ∧
    ∀ q v, oddFrame.cur ≤ q → q < 3 → windowAt oddFrame.buf q = some v →
      v.extractLsb' 0 24 ≠ 0xAAE98A#24 ∧ v.extractLsb' 0 24 ≠ 0x551675#24 := by
  obtain ⟨h0, h1, h2, h3⟩ := oddFrame_windows
  refine ⟨rfl, rfl, by decide, h3, by decide, fun q v _ hq hv => ?_⟩
  obtain rfl | rfl | rfl : q = 0 ∨ q = 1 ∨ q = 2 := by omega
  · cases h0.symm.trans hv; decide
  · cases h1.symm.trans hv; decide
  · cases h2.symm.trans hv; decide

theorem witness_CrcFailureDropsTheCandidate :
    (withAField 0).fault = none ∧ (withAField 0).dstate = .aField fixedSync ∧
    windowAt (withAField 0).buf (withAField 0).cur = some 0#64 ∧ crc16 0#64 ≠ 0x0000#16 :=
  ⟨rfl, rfl, by decide, by decide⟩

theorem witness_ValidAFieldIsRecorded :
    (withAField 0x3FD8112233445508).fault = none ∧ (withAField 0x3FD8112233445508).dstate = .aField fixedSync ∧
    windowAt (withAField 0x3FD8112233445508).buf (withAField 0x3FD8112233445508).cur = some 0x3FD8112233445508#64 ∧
    crc16 0x3FD8112233445508#64 = 0x0000#16 := ⟨rfl, rfl, by decide, by decide⟩

/-- One bit too few, no bit to wait for, and exactly enough. -/
theorem witness_BFieldCompletesWithItsLength :
    (bench b9 63 (.bField halfSlot tail12345 10#7)).fault = none ∧
    available (bench b9 63 (.bField halfSlot tail12345 10#7)) < (10#7).toNat ∧
    noSlotHeader.dstate = .bField { halfSlot with sizeClass := 0b111#3 } tail12345 0#7 ∧ noSlotHeader.fault = none ∧
    10#7 ≠ 0#7 ∧
    (bench b9 62 (.bField halfSlot tail12345 10#7)).cur + (10#7).toNat ≤
      8 * (bench b9 62 (.bField halfSlot tail12345 10#7)).buf.length :=
  ⟨rfl, by decide, rfl, rfl, by decide, by decide⟩

/-- In NewMessage with the cursor moved, and in AField. -/
theorem witness_MoreDataChangesOnlyTheCursor :
    exec .parse (bench (bytesOf 8 0) 0) = .next ((bench (bytesOf 8 0) 1).answer prMoreData) ∧
    ((bench (bytesOf 8 0) 1).answer prMoreData).lastIsMoreData = true ∧
    exec .parse (bench b9 9 (.aField fixedSync)) = .next ((bench b9 9 (.aField fixedSync)).answer prMoreData) ∧
    (bench b9 9 (.aField fixedSync)).dstate ≠ .newMessage :=
  ⟨of_nextOf (by decide), by decide, of_nextOf (by decide), by decide⟩

/-- From each of the three states, and the two ways out of AField. -/
theorem witness_ParseMakesAtMostOneTransition :
    (exec .parse noSlotFrame = .next noSlotSync ∧ noSlotSync.dstate ≠ noSlotFrame.dstate) ∧
    (exec .parse noSlotSync = .next noSlotHeader ∧ noSlotHeader.dstate ≠ noSlotSync.dstate) ∧
    (exec .parse noSlotHeader = .next noSlotDone ∧ noSlotDone.dstate ≠ noSlotHeader.dstate) ∧
    exec .parse (withAField 0) = .next ((bench (bytesOf 8 0) 64).answer prCrcError) :=
  ⟨⟨noSlot_run.1, by decide⟩, ⟨noSlot_run.2.1, by decide⟩, ⟨noSlot_run.2.2, by decide⟩, of_nextOf (by decide)⟩

theorem witness_NoSlotFrameCompletesWithoutWaiting :
    noSlotFrame.fault = none ∧ noSlotFrame.dstate = .newMessage ∧ noSlotFrame.cur ≤ 0 ∧
    windowAt noSlotFrame.buf 0 = some 0x0000000000AAE98A#64 ∧ (classifySync 0x0000000000AAE98A#64).isSome ∧
    (∀ q v, noSlotFrame.cur ≤ q → q < 0 → windowAt noSlotFrame.buf q = some v → classifySync v = none) ∧
    windowAt noSlotFrame.buf (0 + 64) = some 0x7D6311223344550E#64 ∧ crc16 0x7D6311223344550E#64 = 0x0000#16 ∧
    (0x7D6311223344550E#64 : Window).extractLsb' 1 3 = 0b111#3 :=
  ⟨rfl, rfl, by decide, by decide, by decide, fun _ _ _ h => absurd h (by omega), by decide,
    by decide, by decide⟩

/-- A packet without a payload, and one with ten bits. -/
theorem witness_PacketFieldsAtFixedOffsets :
    (noSlotFrame.fault = none ∧ noSlotFrame.dstate = .newMessage ∧ exec .parse noSlotFrame = .next noSlotSync ∧
      noSlotSync.dstate = .aField { kind := .fixed, raw := fixedSync.raw } ∧ noSlotSync.cur = 0 + 64 ∧
      exec .parse noSlotSync = .next noSlotHeader ∧ exec .parse noSlotHeader = .next noSlotDone ∧
      noSlotDone.responses = noSlotHeader.responses ++ [prFull noSlotPacket]) ∧
    (halfSlotStart.fault = none ∧ halfSlotStart.dstate = .newMessage ∧ exec .parse halfSlotStart = .next halfSlotSync ∧
      halfSlotSync.dstate = .aField { kind := .fixed, raw := fixedSync.raw } ∧ halfSlotSync.cur = 0 + 64 ∧
      exec .parse halfSlotSync = .next halfSlotHeader ∧ exec .parse halfSlotHeader = .next halfSlotDone ∧
      halfSlotDone.responses = halfSlotHeader.responses ++ [prFull halfSlotPacket]) :=
  ⟨⟨rfl, rfl, noSlot_run.1, rfl, rfl, noSlot_run.2.1, noSlot_run.2.2, rfl⟩,
    rfl, rfl, halfSlot_run.1, rfl, rfl, halfSlot_run.2.1, halfSlot_run.2.2, rfl⟩

theorem witness_ScanResumesWhereItStopped :
    (bench (bytesOf 8 0) 0).fault = none ∧ (bench (bytesOf 8 0) 0).params.capacity = none ∧
    (bench (bytesOf 8 0) 0).dstate = .newMessage ∧
    exec .parse (bench (bytesOf 8 0) 0) = .next ((bench (bytesOf 8 0) 1).answer prMoreData) ∧
    ((bench (bytesOf 8 0) 1).answer prMoreData).lastIsMoreData = true :=
  ⟨rfl, rfl, rfl, of_nextOf (by decide), by decide⟩

theorem witness_DrainTerminates : halfSlotStart.fault = none := rfl

theorem witness_ChunkSplitIndependence :
    State.reset.fault = none ∧ State.reset.params.capacity = none ∧
    [[0x12#8], [0x34#8]] ≠ ([] : List (List Byte)) ∧ [[0x12#8, 0x34#8]] ≠ ([] : List (List Byte)) ∧
    [[0x12#8], [0x34#8]].flatten = [[0x12#8, 0x34#8]].flatten := ⟨rfl, rfl, by decide, by decide, rfl⟩

theorem witness_HeaderFieldsKeepTheByte : 0x0E#8 = (0x7D6311223344550E#64 : Window).extractLsb' 0 8 := by decide

theorem witness_InstancesAreIndependent :
    stepInstance 1 [oddFrame, noSlotFrame.setPort [parseCommand]] = .next [oddFrame, noSlotSync] ∧
    (∀ s ∈ [oddFrame, noSlotFrame.setPort [parseCommand]], State.Inv s) := by
  refine ⟨?_, fun s hs => ?_⟩
  · have h : step (noSlotFrame.setPort [parseCommand]) = .next noSlotSync := of_nextOf (by decide)
    simp only [stepInstance, List.getElem?_cons_succ, List.getElem?_cons_zero, h, List.set_cons_succ, List.set_cons_zero]
  · simp only [List.mem_cons, List.not_mem_nil, or_false] at hs
    obtain rfl | rfl := hs <;> decide

end Sys2Proof.Tests
end

section
/-! PROOFS. The obligations of 10_state.md: the invariant at reset and over a step, the values after RESET, and the
cursor, all read off `Moved`, the list of what an instruction can do. -/

namespace Sys2Proof.Machine

/-! ## What a step can do -/

/-- What a step can do: idle on an empty port, run the command it took, or reject a word that is no command. -/
theorem step_next {s t : State} (h : step s = .next t) :
    (s.port = [] ∧ t = s) ∨
    ∃ c rest, s.port = c :: rest ∧
      ((∃ i, decode (.command c) = .ok i ∧ exec i (s.setPort rest) = .next t) ∨
        (∃ e, decode (.command c) = .error e ∧ rejectCommand (s.setPort rest) = .next t)) := by
  cases hp : s.port with
  | nil =>
    simp only [step, nextCommand, hp] at h
    cases h
    exact .inl ⟨rfl, rfl⟩
  | cons c rest =>
    refine .inr ⟨c, rest, rfl, ?_⟩
    cases hd : decode (.command c) with
    | ok i => exact .inl ⟨i, rfl, by simpa only [step, nextCommand, hp, hd] using h⟩
    | error e => exact .inr ⟨e, rfl, by simpa only [step, nextCommand, hp, hd] using h⟩

/-! ## The retained bytes and the capacity (20_memory.md R64) -/

/-- Consuming bits retains no more bytes. -/
theorem retained_setCur_le {s : State} {c : Nat} (hc : s.cur ≤ c) : retained (s.setCur c) ≤ retained s :=
  Nat.sub_le_sub_left (Nat.div_le_div_right hc) _

/-- An EXTEND does not overflow exactly when the byte it appends still fits a finite capacity. -/
theorem overflows_eq_false_iff {s : State} {b : Byte} :
    overflows s = false ↔ (s.setBuf (appendByte b s.buf)).WithinCapacity := by
  cases h : s.params.capacity <;>
    simp [overflows, State.WithinCapacity, State.withinCapacity, retained, appendByte, h]

theorem State.WithinCapacity.of_retained_le {s t : State} (hs : s.WithinCapacity) (hp : t.params = s.params)
    (hr : retained t ≤ retained s) : t.WithinCapacity := by
  rw [withinCapacity_iff] at hs ⊢
  intro c hc
  exact Nat.le_trans hr (hs c (hp ▸ hc))

/-! ## The invariant under each update of the state -/

theorem State.inv_answer (r : Response) (s : State) : (s.answer r).Inv ↔ s.Inv := Iff.rfl
theorem State.inv_setFault (c : FaultCode) (s : State) : (s.setFault c).Inv ↔ s.Inv := Iff.rfl
theorem State.inv_setPort (p : List HostCommand) (s : State) : (s.setPort p).Inv ↔ s.Inv := Iff.rfl

theorem State.Inv.setCur {s : State} {c : Nat} (hs : s.Inv) (hc : s.cur ≤ c) (hin : c ≤ storedBits s.buf) :
    (s.setCur c).Inv := by
  obtain ⟨-, hcons, hcap⟩ := hs
  exact ⟨hin, hcons, hcap.of_retained_le rfl (retained_setCur_le hc)⟩

theorem State.Inv.setDstate {s : State} {d : DecoderState} (hs : s.Inv) (hd : d.Consistent) : (s.setDstate d).Inv := by
  obtain ⟨hcur, -, hcap⟩ := hs
  exact ⟨hcur, hd, hcap⟩

theorem State.Inv.setBuf_appendByte {s : State} {b : Byte} (hs : s.Inv) (ho : overflows s = false) :
    (s.setBuf (appendByte b s.buf)).Inv := by
  obtain ⟨hcur, hcons, -⟩ := hs
  have hgrown : s.cur ≤ storedBits (appendByte b s.buf) := by rw [storedBits_appendByte]; omega
  exact ⟨hgrown, hcons, overflows_eq_false_iff.mp ho⟩

/-- An empty stream with the cursor at 0 retains no byte, so it is within every capacity. -/
theorem State.inv_of_empty {s : State} (hb : s.buf = []) (hc : s.cur = 0) (hd : s.dstate = .newMessage) : s.Inv := by
  refine ⟨by simp [hc], by rw [hd]; exact consistent_newMessage, withinCapacity_iff.mpr fun c _ => ?_⟩
  simp [retained, hb]

/-! ## What every instruction keeps -/

theorem Moved.inv {i : Instr} {s t : State} (h : Moved i s t) (hs : s.Inv) : t.Inv := by
  have hmax : max s.cur (storedBits s.buf) = storedBits s.buf := Nat.max_eq_right hs.1
  cases h with
  | answered r => exact (State.inv_answer r s).mpr hs
  | faulted c hf hi => exact (State.inv_answer _ _).mpr ((State.inv_setFault c s).mpr hs)
  | reset hi hf => exact State.inv_of_empty rfl rfl rfl
  | extended b hi hf ho => exact (State.inv_answer _ _).mpr (hs.setBuf_appendByte ho)
  | advanced c r hf hc hin hi => exact (State.inv_answer r _).mpr (hs.setCur hc (hmax ▸ hin))
  | decoded c d r hf hc hin hd hi => exact (State.inv_answer r _).mpr ((hs.setCur hc (hmax ▸ hin)).setDstate hd)

theorem Moved.params_eq {i : Instr} {s t : State} (h : Moved i s t) : t.params = s.params := by
  cases h <;> rfl

theorem Moved.cur_le {i : Instr} {s t : State} (h : Moved i s t) (hi : i ≠ .reset) : s.cur ≤ t.cur := by
  cases h with
  | answered r => exact Nat.le_refl _
  | faulted c hf hi => exact Nat.le_refl _
  | reset hreset hf => exact absurd hreset hi
  | extended b hi hf ho => exact Nat.le_refl _
  | advanced c r hf hc hin hi => exact hc
  | decoded c d r hf hc hin hd hi => exact hc

/-- Rejecting a word is what the row of the reserved selector 0x0 does. -/
theorem rejectCommand_moved {s t : State} (h : rejectCommand s = .next t) (arg : BitVec 12) :
    Moved (.reservedOp0 arg) s t := exec_moved ((exec_reservedOp0 arg s).trans h)

/-! ## RESET -/

/-- RESET on a block without a fault empties the stream and returns the decoder to NewMessage. -/
theorem exec_reset_of_no_fault {s : State} (h : s.fault = none) :
    exec .reset s = .next ((((s.setBuf []).setCur 0).setDstate .newMessage).answer .ok) := by
  rw [exec_reset, prologue_of_no_fault h, respond_eq]

/-! ## The obligations -/

/-- Settles O3: each outcome of a step keeps the invariant, an instruction by the case analysis of `Moved`. -/
theorem stepKeepsTheInvariant : Obligations.StepKeepsTheInvariant := by
  intro s t hs h
  obtain ⟨-, rfl⟩ | ⟨c, rest, -, ⟨i, -, hexec⟩ | ⟨e, -, hreject⟩⟩ := step_next h
  · exact hs
  · exact (exec_moved hexec).inv ((State.inv_setPort rest s).mpr hs)
  · exact (rejectCommand_moved hreject 0#12).inv ((State.inv_setPort rest s).mpr hs)

/-- Settles O1: the reset values by evaluation, RESET by its next state, the parameters by `Moved`. -/
theorem resetLeavesTheSpecValues : Obligations.ResetLeavesTheSpecValues :=
  ⟨⟨rfl, rfl, rfl, rfl, rfl⟩,
    fun _ hf => ⟨_, exec_reset_of_no_fault hf, rfl, rfl, rfl, rfl, hf⟩,
    fun _ _ _ h => (exec_moved h).params_eq⟩

/-- Settles O32: of the moves of `Moved` only RESET lowers the cursor. -/
theorem cursorNeverMovesBackward : Obligations.CursorNeverMovesBackward :=
  fun _ _ _ hi h => (exec_moved h).cur_le hi

/-- Settles O2: the reset state is an empty one. -/
theorem resetMeetsTheInvariant : Obligations.ResetMeetsTheInvariant := State.inv_of_empty rfl rfl rfl

end Sys2Proof.Machine
end

section
/-! PROOFS. The obligations of 20_memory.md on the bits of the stream, each read off one fact: bit `i` of a read is the
`i`-th most significant bit of the number it spells. -/

namespace Sys2Proof.Machine

/-! ## The bits of a byte -/

theorem readByte_isSome {m : Memory} {a : Nat} : (readByte m a).isSome ↔ a < m.length := by simp [readByte]

/-- The stream bits of a stored byte, the most significant first. -/
theorem streamBit_of_readByte {m : Memory} {a i : Nat} {b : Byte} (hb : readByte m a = some b) (hi : i < 8) :
    streamBit m (8 * a + i) = some (b.getMsbD i) := by
  rw [streamBit, show (8 * a + i) / 8 = a by omega, show (8 * a + i) % 8 = i by omega, hb, Option.map_some]

/-- The most significant bit but `i` of a byte, by shift and mask. -/
theorem shift_and_one_eq_getMsbD {b : Byte} {i : Nat} (hi : i < 8) :
    (((b >>> (7 - i)) &&& 1#8) == 1#8) = b.getMsbD i := by
  rw [BitVec.and_one_eq_setWidth_ofBool_getLsbD, BitVec.getLsbD_ushiftRight, BitVec.getMsbD_eq_getLsbD, Nat.add_zero]
  cases b.getLsbD (7 - i) <;> simp [hi]

/-! ## The bits of a read -/

/-- Bit `i` of a bit sequence of length `n` is bit `n − 1 − i` of the number it spells. -/
theorem getElem?_eq_testBit_uint {bits : List Bool} {i : Nat} (hi : i < bits.length) :
    bits[i]? = some ((uint bits).testBit (bits.length - 1 - i)) := by
  induction bits generalizing i with
  | nil => exact absurd hi (Nat.not_lt_zero i)
  | cons b bs ih =>
    rw [uint_cons, Nat.mul_comm, Nat.testBit_two_pow_mul_add _ (uint_lt bs), List.length_cons]
    cases i with
    | zero => cases b <;> simp
    | succ i =>
      have hi' : i < bs.length := Nat.lt_of_succ_lt_succ hi
      rw [List.getElem?_cons_succ, ih hi', if_pos (by omega), show bs.length + 1 - 1 - (i + 1) = bs.length - 1 - i by omega]

/-- Stream bit `pos + i` is the most significant bit but `i` of the number a read at `pos` spells. -/
theorem streamBit_of_memRead {m : Memory} {pos n i : Nat} {bits : List Bool} (h : memRead m pos n = some bits)
    (hi : i < n) : streamBit m (pos + i) = some ((BitVec.ofNat n (uint bits)).getMsbD i) := by
  have hlen := memRead_length h
  rw [← memRead_getElem? h hi, getElem?_eq_testBit_uint (by omega), hlen, BitVec.getMsbD_eq_getLsbD,
    BitVec.getLsbD_ofNat]
  simp [hi, show n - 1 - i < n by omega]

theorem streamBit_of_windowAt {m : Memory} {pos i : Nat} {w : Window} (h : windowAt m pos = some w) (hi : i < 64) :
    streamBit m (pos + i) = some (w.getMsbD i) := by
  obtain ⟨bits, hread, rfl⟩ := Option.map_eq_some_iff.mp h
  exact streamBit_of_memRead hread hi

theorem getMsbD_windowByte {w : Window} {j i : Nat} (hj : j < 8) (hi : i < 8) :
    (windowByte w j).getMsbD i = w.getMsbD (8 * j + i) := by
  rw [windowByte, BitVec.getMsbD_extractLsb', show 64 - (56 - 8 * j + 8 - i) = 8 * j + i by omega]
  simp [hi, show 56 - 8 * j + 8 - i ≤ 64 by omega]

/-- Byte `j` of the window at `pos` has the stream bits from `pos + 8j` on. -/
theorem streamBit_of_windowByte {m : Memory} {pos j i : Nat} {w : Window} (h : windowAt m pos = some w) (hj : j < 8)
    (hi : i < 8) : streamBit m (pos + 8 * j + i) = some ((windowByte w j).getMsbD i) := by
  rw [getMsbD_windowByte hj hi, Nat.add_assoc, streamBit_of_windowAt h (by omega)]

/-! ## The obligations on the stream's bits -/

/-- Settles O38: the model's bit of a byte is the shifted and masked one, and a stream bit exists at stored positions
alone. -/
theorem streamBitIsMostSignificantFirst : Obligations.StreamBitIsMostSignificantFirst := by
  refine ⟨fun m k b hb => ?_, fun m k hk => ?_⟩
  · rw [shift_and_one_eq_getMsbD (Nat.mod_lt k (by decide)), streamBit, hb, Option.map_some]
  · have hnone : ¬ (streamBit m k).isSome := fun h => Nat.not_lt.mpr hk (streamBit_isSome.mp h)
    exact Option.not_isSome_iff_eq_none.mp hnone

/-- Settles O39: the byte and the read have the same eight stream bits. -/
theorem windowBytesAreReads : Obligations.WindowBytesAreReads := by
  intro m pos w j bits hw hj hread
  refine BitVec.eq_of_getMsbD_eq fun i hi => Option.some.inj ?_
  rw [← streamBit_of_windowByte hw hj hi, streamBit_of_memRead hread hi]

/-- Settles O40: the stored byte and the window's byte have the same eight stream bits. -/
theorem alignedWindowIsTheBytes : Obligations.AlignedWindowIsTheBytes := by
  intro m a w j hw hj
  have hle : 8 * a + 64 ≤ 8 * m.length := windowAt_le hw
  obtain ⟨b, hb⟩ := Option.isSome_iff_exists.mp (readByte_isSome (m := m) (a := a + j) |>.mpr (by omega))
  rw [hb, Option.some.injEq]
  refine BitVec.eq_of_getMsbD_eq fun i hi => Option.some.inj ?_
  rw [← streamBit_of_readByte hb hi, Nat.mul_add, streamBit_of_windowByte hw hj hi]

end Sys2Proof.Machine
end

section
/-! PROOFS. 20_memory.md R63: an instruction reads no consumed byte. Every instruction but RESET and EXTEND, the two that
write the stream, commutes with replacing the consumed bytes; this is shown of each shared operation once. -/

namespace Sys2Proof.Machine

/-! ## Results over another stream -/

/-- The result with the stream of its next state replaced. -/
def resultWithBuf (m : Memory) (r : Result) : Result :=
  match r with
  | .next t => .next (t.setBuf m)
  | .fault f => .fault f
  | .refused f => .refused f

/-- Replacing the stream by `m` before `op` is replacing it after. -/
abbrev CommutesWithBuf (m : Memory) (op : State → Result) (s : State) : Prop :=
  op (s.setBuf m) = resultWithBuf m (op s)

section
variable {m : Memory} {s : State}

theorem CommutesWithBuf.prologue {body : State → Result} (h : CommutesWithBuf m body s) :
    CommutesWithBuf m (fun s => prologue s body) s := by
  cases hf : s.fault with
  | some c => simp only [CommutesWithBuf, prologue_of_fault hf, prologue_of_fault (s := s.setBuf m) hf]; rfl
  | none => simpa only [CommutesWithBuf, prologue_of_no_fault hf, prologue_of_no_fault (s := s.setBuf m) hf] using h

theorem CommutesWithBuf.testPortPrologue {body : State → Result} (h : CommutesWithBuf m body s) :
    CommutesWithBuf m (fun s => testPortPrologue s body) s := by
  refine CommutesWithBuf.prologue ?_
  cases hp : s.params.testPort with
  | true => simpa [CommutesWithBuf, hp] using h
  | false => simp only [CommutesWithBuf, State.setBuf_params, hp]; rfl

/-! ## What is read of two streams that differ in consumed bytes alone -/

theorem SameFrom.mono {c d : Nat} {m n : Memory} (h : SameFrom c m n) (hcd : c ≤ d) : SameFrom d m n :=
  ⟨h.1, fun a ha => h.2 a (by omega)⟩

theorem SameFrom.storedBits_eq {c : Nat} {m n : Memory} (h : SameFrom c m n) : storedBits n = storedBits m := by
  rw [storedBits, storedBits, h.1]

theorem SameFrom.memRead_eq {c pos k : Nat} {m n : Memory} (h : SameFrom c m n) (hc : c ≤ pos) :
    memRead n pos k = memRead m pos k :=
  (memRead_congr h.1 fun a ha => h.2 a (by omega)).symm

theorem SameFrom.windowAt_eq {c pos : Nat} {m n : Memory} (h : SameFrom c m n) (hc : c ≤ pos) :
    windowAt n pos = windowAt m pos := by rw [windowAt, windowAt, h.memRead_eq hc]

theorem SameFrom.scan_eq {c pos fuel : Nat} {m n : Memory} (h : SameFrom c m n) (hc : c ≤ pos) :
    scan n fuel pos = scan m fuel pos := by
  induction fuel generalizing pos with
  | zero => rfl
  | succ fuel ih => rw [scan, scan, h.storedBits_eq, h.windowAt_eq hc, ih (by omega)]

theorem SameFrom.available_eq {c : Nat} (h : SameFrom c s.buf m) : available (s.setBuf m) = available s := by
  simp only [available, State.setBuf_buf, State.setBuf_cur, h.storedBits_eq]

theorem SameFrom.overflows_eq {c : Nat} (h : SameFrom c s.buf m) : overflows (s.setBuf m) = overflows s := by
  rw [overflows, overflows, State.setBuf_params]
  split
  · rfl
  · exact decide_eq_decide.mpr (by rw [State.setBuf_buf, State.setBuf_cur, h.1])

theorem SameFrom.statusOf_eq {c : Nat} (h : SameFrom c s.buf m) : statusOf (s.setBuf m) = statusOf s := by
  simp only [statusOf, State.setBuf_dstate, State.setBuf_cur, State.setBuf_buf, h.storedBits_eq]

theorem SameFrom.appendByte {c : Nat} {m n : Memory} (h : SameFrom c m n) (b : Byte) :
    SameFrom c (appendByte b m) (appendByte b n) := by
  obtain ⟨hlen, hbytes⟩ := h
  refine ⟨by simp [Machine.appendByte, hlen], fun a ha => ?_⟩
  by_cases hend : a = appendAddress m
  · have hend' : a = appendAddress n := hend.trans hlen
    rw [hend, readByte_appendByte_same, ← hend, hend', readByte_appendByte_same]
  · have hend' : a ≠ appendAddress n := fun e => hend (e.trans hlen.symm)
    rw [readByte_appendByte_other hend, readByte_appendByte_other hend', hbytes a ha]

/-! ## The internal operations and PARSE -/

theorem peekThen_setBuf {n : Nat} {k k' : List Bool → Result} (h : SameFrom s.cur s.buf m)
    (hk : ∀ bits, k' bits = resultWithBuf m (k bits)) :
    peekThen n (s.setBuf m) k' = resultWithBuf m (peekThen n s k) := by
  simp only [peekThen, State.setBuf_buf, State.setBuf_cur, h.memRead_eq (Nat.le_refl _)]
  cases memRead s.buf s.cur n with
  | none => rfl
  | some bits => exact hk bits

theorem windowThen_setBuf {k k' : Window → Result} (h : SameFrom s.cur s.buf m)
    (hk : ∀ w, k' w = resultWithBuf m (k w)) :
    windowThen (s.setBuf m) k' = resultWithBuf m (windowThen s k) := by
  simp only [windowThen, State.setBuf_buf, State.setBuf_cur, h.windowAt_eq (Nat.le_refl _)]
  cases windowAt s.buf s.cur with
  | none => rfl
  | some w => exact hk w

theorem advanceThen_commutesWithBuf {c n : Nat} {k : State → Result} (h : SameFrom c s.buf m)
    (hk : CommutesWithBuf m k (s.setCur (s.cur + n))) : CommutesWithBuf m (fun s => advanceThen n s k) s := by
  simp only [CommutesWithBuf, advanceThen, h.available_eq]
  split
  · rfl
  · exact hk

theorem syncFound_commutesWithBuf {c : Nat} (h : SameFrom c s.buf m) (kind : SyncKind) (w : Window) :
    CommutesWithBuf m (syncFound kind w) s := advanceThen_commutesWithBuf h rfl

theorem dropCandidate_commutesWithBuf {c : Nat} (h : SameFrom c s.buf m) : CommutesWithBuf m dropCandidate s :=
  advanceThen_commutesWithBuf h rfl

theorem acceptAField_commutesWithBuf (h : SameFrom s.cur s.buf m) (header : MACHeader) :
    CommutesWithBuf m (acceptAField header) s :=
  windowThen_setBuf h fun _ => advanceThen_commutesWithBuf h rfl

theorem parseNewMessage_commutesWithBuf (h : SameFrom s.cur s.buf m) : CommutesWithBuf m parseNewMessage s := by
  simp only [CommutesWithBuf, parseNewMessage, State.setBuf_buf, State.setBuf_cur, h.storedBits_eq,
    h.scan_eq (Nat.le_refl _)]
  cases scan s.buf (storedBits s.buf) s.cur with
  | exhausted c => rfl
  | found p kind w => exact syncFound_commutesWithBuf (s := s.setCur p) h kind w
  | outside => rfl

theorem parseAField_commutesWithBuf (h : SameFrom s.cur s.buf m) : CommutesWithBuf m parseAField s := by
  simp only [CommutesWithBuf, parseAField, h.available_eq]
  split
  · rfl
  · refine windowThen_setBuf h fun a => ?_
    split
    · exact dropCandidate_commutesWithBuf h
    · exact acceptAField_commutesWithBuf h _

theorem parseBField_commutesWithBuf (h : SameFrom s.cur s.buf m) (header : MACHeader) (tail : Tail) (len : BitVec 7) :
    CommutesWithBuf m (parseBField header tail len) s := by
  simp only [CommutesWithBuf, parseBField, h.available_eq]
  split
  · rfl
  · split
    · rfl
    · exact peekThen_setBuf h fun _ => advanceThen_commutesWithBuf h rfl

/-! ## The instructions -/

/-- Every instruction begins with the command prologue (60_exceptions.md R202). -/
theorem exec_eq_prologue (i : Instr) : ∃ body, ∀ s, exec i s = prologue s body := by
  cases i <;> exact ⟨_, fun _ => rfl⟩

theorem exec_of_fault {i : Instr} {c : FaultCode} (h : s.fault = some c) :
    exec i s = .next (s.answer (.faulted c)) := by
  obtain ⟨body, hbody⟩ := exec_eq_prologue i
  rw [hbody, prologue_of_fault h]

theorem execPeek_commutesWithBuf (h : SameFrom s.cur s.buf m) (n : BitVec 12) : CommutesWithBuf m (execPeek n) s := by
  refine CommutesWithBuf.testPortPrologue ?_
  simp only [CommutesWithBuf, h.available_eq]
  split
  · rfl
  · exact peekThen_setBuf h fun _ => rfl

theorem execNextwin_commutesWithBuf (h : SameFrom s.cur s.buf m) : CommutesWithBuf m execNextwin s := by
  refine CommutesWithBuf.testPortPrologue ?_
  simp only [CommutesWithBuf, h.available_eq]
  split
  · rfl
  · exact windowThen_setBuf h fun _ => rfl

theorem execAdvance_commutesWithBuf {c : Nat} (h : SameFrom c s.buf m) (n : BitVec 12) :
    CommutesWithBuf m (execAdvance n) s := by
  refine CommutesWithBuf.testPortPrologue ?_
  simp only [CommutesWithBuf, h.available_eq]
  split <;> rfl

theorem execParse_commutesWithBuf (h : SameFrom s.cur s.buf m) : CommutesWithBuf m execParse s := by
  refine CommutesWithBuf.prologue ?_
  simp only [CommutesWithBuf, State.setBuf_dstate]
  split
  · exact parseNewMessage_commutesWithBuf h
  · exact parseAField_commutesWithBuf h
  · exact parseBField_commutesWithBuf h _ _ _

/-- Every instruction that does not write the stream commutes with replacing its consumed bytes. -/
theorem exec_commutesWithBuf (h : SameFrom s.cur s.buf m) {i : Instr} (hreset : i ≠ .reset)
    (hextend : ∀ b, i ≠ .extend b) : CommutesWithBuf m (exec i) s := by
  cases i with
  | reset => exact absurd rfl hreset
  | extend b => exact absurd rfl (hextend b)
  | parse => exact execParse_commutesWithBuf h
  | status =>
    refine CommutesWithBuf.prologue ?_
    simp only [CommutesWithBuf, h.statusOf_eq]
    rfl
  | avail =>
    refine CommutesWithBuf.testPortPrologue ?_
    simp only [CommutesWithBuf, h.available_eq]
    rfl
  | peek n => exact execPeek_commutesWithBuf h n
  | nextwin => exact execNextwin_commutesWithBuf h
  | advance n => exact execAdvance_commutesWithBuf h n
  | crc din => exact CommutesWithBuf.testPortPrologue rfl
  | reservedOp0 _ | reservedOpsABEF _ _ | reservedOpsCDEF _ _ => exact CommutesWithBuf.prologue rfl
  | fpSync lead | ppSync lead => exact CommutesWithBuf.prologue (syncFound_commutesWithBuf h _ _)
  | _ => exact CommutesWithBuf.prologue (acceptAField_commutesWithBuf h _)

/-! ## The next state -/

theorem Moved.buf_eq {i : Instr} {t : State} (h : Moved i s t) (hreset : i ≠ .reset) (hextend : ∀ b, i ≠ .extend b) :
    t.buf = s.buf := by
  cases h with
  | reset hi hf => exact absurd hi hreset
  | extended b hi hf ho => exact absurd hi (hextend b)
  | answered _ | faulted _ _ _ | advanced _ _ _ _ _ _ | decoded _ _ _ _ _ _ _ _ => rfl

/-- The next state of an instruction over another stream is the same but for the stream, which differs again in consumed
bytes alone. -/
theorem exec_setBuf_of_sameFrom {i : Instr} {t : State} (h : SameFrom s.cur s.buf m) (ht : exec i s = .next t) :
    ∃ n, exec i (s.setBuf m) = .next (t.setBuf n) ∧ SameFrom t.cur t.buf n := by
  by_cases hreset : i = .reset
  · subst hreset
    rw [exec_reset] at ht
    obtain ⟨c, hf, rfl⟩ | ⟨hf, hbody⟩ := prologue_next ht
    · exact ⟨m, exec_of_fault (s := s.setBuf m) hf, h⟩
    · cases hbody
      exact ⟨[], exec_reset_of_no_fault (s := s.setBuf m) hf, rfl, fun _ _ => rfl⟩
  by_cases hextend : ∃ b, i = .extend b
  · obtain ⟨b, rfl⟩ := hextend
    rw [exec_extend] at ht
    obtain ⟨c, hf, rfl⟩ | ⟨hf, hbody⟩ := prologue_next ht
    · exact ⟨m, exec_of_fault (s := s.setBuf m) hf, h⟩
    · rw [exec_extend, prologue_of_no_fault (s := s.setBuf m) hf, h.overflows_eq]
      split at hbody <;> cases hbody
      · rename_i ho
        exact ⟨m, by rw [if_pos ho]; rfl, h⟩
      · rename_i ho
        exact ⟨appendByte b m, by rw [if_neg ho]; rfl, h.appendByte b⟩
  · have hextend' : ∀ b, i ≠ .extend b := fun b e => hextend ⟨b, e⟩
    have hmoved := exec_moved ht
    refine ⟨m, ?_, ?_⟩
    · rw [exec_commutesWithBuf h hreset hextend', ht]
      rfl
    · rw [hmoved.buf_eq hreset hextend']
      exact h.mono (hmoved.cur_le hreset)

end

/-! ## The obligation -/

/-- Settles O41: the two next states differ in their stream alone. -/
theorem consumedBytesAreUnobservable : Obligations.ConsumedBytesAreUnobservable := by
  intro i s m t h ht
  obtain ⟨n, hn, hsame⟩ := exec_setBuf_of_sameFrom h ht
  exact ⟨t.setBuf n, hn, rfl, rfl, rfl, rfl, hsame⟩

end Sys2Proof.Machine
end

section
/-! PROOFS. 60_exceptions.md R213: which instructions a command word can be, that each of them ends in a next state when
the cursor is in the stream, and that a step of a system reads and writes one place of its list alone. -/

namespace Sys2Proof.Machine

/-! ## The instruction of a command word -/

/-- A command word decodes to a host command, never to a row of data patterns. -/
theorem encodeCommand_ne_none_of_decode {c : HostCommand} {i : Instr} (h : decode (.command c) = .ok i) :
    encodeCommand i ≠ none := by
  rw [decode, decodeCommand] at h
  split at h
  case h_3 =>
    obtain ⟨b, -, rfl⟩ := decodeExtend_ok h
    exact Option.some_ne_none _
  case h_2 | h_4 | h_5 | h_6 | h_8 | h_10 =>
    rw [(withZeroArg_ok h).2]
    exact Option.some_ne_none _
  all_goals
    cases h
    exact Option.some_ne_none _

/-! ## The step on a waiting command -/

theorem step_of_idle {s : State} (hp : s.port = []) : step s = .next s := by simp only [step, nextCommand, hp]

theorem step_of_decode_ok {s : State} {c : HostCommand} {rest : List HostCommand} {i : Instr} (hp : s.port = c :: rest)
    (hd : decode (.command c) = .ok i) : step s = exec i (s.setPort rest) := by
  simp only [step, nextCommand, hp, hd]

theorem step_of_decode_error {s : State} {c : HostCommand} {rest : List HostCommand} {e : DecodeError}
    (hp : s.port = c :: rest) (hd : decode (.command c) = .error e) : step s = rejectCommand (s.setPort rest) := by
  simp only [step, nextCommand, hp, hd]

/-! ## A step ends in a next state -/

theorem prologue_isNext {s : State} {body : State → Result} (h : ∃ t, body s = .next t) :
    ∃ t, prologue s body = .next t := by
  cases hf : s.fault with
  | some c => exact ⟨_, prologue_of_fault hf body⟩
  | none => rwa [prologue_of_no_fault hf]

theorem testPortPrologue_isNext {s : State} {body : State → Result} (h : ∃ t, body s = .next t) :
    ∃ t, testPortPrologue s body = .next t := by
  refine prologue_isNext ?_
  cases s.params.testPort with
  | true => exact h
  | false => exact ⟨_, rfl⟩

theorem rejectCommand_isNext (s : State) : ∃ t, rejectCommand s = .next t := prologue_isNext ⟨_, rfl⟩

theorem exec_peek_isNext {s : State} (hs : s.CursorInStream) (n : BitVec 12) : ∃ t, exec (.peek n) s = .next t := by
  rw [exec_peek]
  refine testPortPrologue_isNext ?_
  split
  · exact ⟨_, rfl⟩
  · rename_i ha
    have hle : s.cur + countOf n ≤ storedBits s.buf := by
      have : s.cur ≤ storedBits s.buf := hs
      simp only [available] at ha
      omega
    obtain ⟨bits, hbits⟩ := memRead_of_le hle
    exact ⟨_, peekThen_of_read hbits _⟩

theorem exec_nextwin_isNext (s : State) : ∃ t, exec .nextwin s = .next t := by
  rw [exec_nextwin]
  refine testPortPrologue_isNext ?_
  split
  · exact ⟨_, rfl⟩
  · obtain ⟨w, hw⟩ := windowAt_cur_of_available (s := s) (by omega)
    exact ⟨_, windowThen_of_window hw _⟩

theorem exec_parse_isNext (s : State) : ∃ t, exec .parse s = .next t := by
  rw [exec_parse]
  refine prologue_isNext ?_
  split
  · obtain ⟨-, e⟩ | ⟨_, _, _, -, -, -, -, e⟩ := parseNewMessage_cases s <;> exact ⟨_, e⟩
  · obtain ⟨-, e⟩ | ⟨_, -, -, -, e⟩ | ⟨_, -, -, -, e⟩ := parseAField_cases s <;> exact ⟨_, e⟩
  · obtain ⟨-, e⟩ | ⟨-, e⟩ | ⟨_, -, -, -, e⟩ := parseBField_cases _ _ _ s <;> exact ⟨_, e⟩

/-- Every host command ends in a next state when the cursor is within the stored bits. -/
theorem exec_isNext {i : Instr} {s : State} (hs : s.CursorInStream) (hi : encodeCommand i ≠ none) :
    ∃ t, exec i s = .next t := by
  cases i with
  | reset =>
    rw [exec_reset]
    exact prologue_isNext ⟨_, rfl⟩
  | status => exact prologue_isNext ⟨_, rfl⟩
  | extend b =>
    rw [exec_extend]
    refine prologue_isNext ?_
    split <;> exact ⟨_, rfl⟩
  | parse => exact exec_parse_isNext s
  | avail | crc _ => exact testPortPrologue_isNext ⟨_, rfl⟩
  | peek n => exact exec_peek_isNext hs n
  | nextwin => exact exec_nextwin_isNext s
  | advance n =>
    rw [exec_advance]
    refine testPortPrologue_isNext ?_
    split <;> exact ⟨_, rfl⟩
  | reservedOp0 _ | reservedOpsABEF _ _ | reservedOpsCDEF _ _ => exact rejectCommand_isNext s
  | _ => exact absurd rfl hi

theorem step_isNext {s : State} (hs : s.CursorInStream) : ∃ t, step s = .next t := by
  cases hp : s.port with
  | nil => exact ⟨s, step_of_idle hp⟩
  | cons c rest =>
    cases hd : decode (.command c) with
    | ok i =>
      rw [step_of_decode_ok hp hd]
      exact exec_isNext (s := s.setPort rest) hs (encodeCommand_ne_none_of_decode hd)
    | error e =>
      rw [step_of_decode_error hp hd]
      exact rejectCommand_isNext _

/-! ## A step of a system -/

theorem stepInstance_of_getElem? {k : Nat} {sys : List State} {s t : State} (hk : sys[k]? = some s)
    (h : step s = .next t) : stepInstance k sys = .next (sys.set k t) := by simp only [stepInstance, hk, h]

theorem stepInstance_of_none {k : Nat} {sys : List State} (hk : sys[k]? = none) : stepInstance k sys = .next sys := by
  simp only [stepInstance, hk]

/-- From blocks that meet the invariant, a step of number `k` sets place `k` to a value that depends on that place
alone. -/
theorem stepInstance_eq_set {k : Nat} {sys : List State} (hsys : ∀ s ∈ sys, State.Inv s) :
    ∃ t, ∀ sys' : List State, sys'[k]? = sys[k]? → stepInstance k sys' = .next (sys'.set k t) := by
  cases hk : sys[k]? with
  | none =>
    refine ⟨State.reset, fun sys' hk' => ?_⟩
    rw [stepInstance_of_none hk', List.set_eq_of_length_le (List.getElem?_eq_none_iff.mp hk')]
  | some s =>
    obtain ⟨t, ht⟩ := step_isNext (hsys s (List.mem_of_getElem? hk)).1
    exact ⟨t, fun sys' hk' => stepInstance_of_getElem? hk' ht⟩

theorem stepInstance_getElem?_ne {k j : Nat} {sys sys' : List State} (h : stepInstance k sys = .next sys') (hjk : j ≠ k) :
    sys'[j]? = sys[j]? := by
  unfold stepInstance at h
  split at h
  · cases h; rfl
  · split at h <;> cases h
    exact List.getElem?_set_ne hjk.symm

/-- Two steps in a row, when each sets its own place to a value that depends on that place alone. -/
theorem runSchedule_pair {k j : Nat} {sys : List State} {t u : State} (hjk : j ≠ k)
    (hk : stepInstance k sys = .next (sys.set k t))
    (hj : ∀ sys' : List State, sys'[j]? = sys[j]? → stepInstance j sys' = .next (sys'.set j u)) :
    runSchedule [k, j] sys = .next ((sys.set k t).set j u) := by
  simp only [runSchedule, hk, hj _ (List.getElem?_set_ne hjk.symm)]

/-- Settles O59: each of the two steps sets its own place, so they may come in either order. -/
theorem instancesAreIndependent : Obligations.InstancesAreIndependent := by
  refine ⟨fun k j sys sys' h hjk => stepInstance_getElem?_ne h hjk, fun k j sys hsys hjk => ?_⟩
  obtain ⟨t, hk⟩ := stepInstance_eq_set (k := k) hsys
  obtain ⟨u, hj⟩ := stepInstance_eq_set (k := j) hsys
  rw [runSchedule_pair hjk (hk sys rfl) hj, runSchedule_pair hjk.symm (hj sys rfl) hk, List.set_comm t u hjk.symm]

end Sys2Proof.Machine
end

section
/-! PROOFS. 20_memory.md R57: how far a carried PEEK or ADVANCE reaches. PEEK alone answers `Bits`, and as many as its
count. -/

namespace Sys2Proof.Machine

/-! ## The count a command word carries -/

theorem countOf_le_of_carries {p : Params} {c : HostCommand} (h : carries p c = true)
    (hop : opField c.cmd = 0x6#4 ∨ opField c.cmd = 0x8#4) : countOf (argField c.cmd) ≤ p.maxPeek := by
  rw [carries, if_pos hop] at h
  exact of_decide_eq_true h

/-- The 12-bit argument fixes the largest count (30_encoding.md R70). -/
theorem carries_params (c : HostCommand) : carries Config.params c = true := by
  rw [carries]
  split
  · exact decide_eq_true (Nat.le_of_lt_succ (argField c.cmd).isLt)
  · rfl

/-- Only the selector 0x6 decodes to PEEK, whose count is the argument. -/
theorem decode_eq_peek {c : HostCommand} {n : BitVec 12} (h : decode (.command c) = .ok (.peek n)) :
    opField c.cmd = 0x6#4 ∧ n = argField c.cmd := by
  have hop : ∀ op : BitVec 4, op[3] = false → op[2] = true → op[1] = true → op[0] = false → op = 0x6#4 := by decide
  rw [decode, decodeCommand] at h
  split at h
  case h_3 =>
    obtain ⟨b, -, hb⟩ := decodeExtend_ok h
    cases hb
  case h_7 h₃ h₂ h₁ h₀ =>
    cases h
    exact ⟨hop _ h₃ h₂ h₁ h₀, rfl⟩
  case h_2 | h_4 | h_5 | h_6 | h_8 | h_10 => cases (withZeroArg_ok h).2
  all_goals cases h

theorem decode_of_advance {c : HostCommand} (h : opField c.cmd = 0x8#4) :
    decode (.command c) = .ok (.advance (argField c.cmd)) := by
  simp [decode, decodeCommand, h]

/-! ## Which instructions answer `Bits` -/

/-- The result is no next state that answers `Bits` to `s`. -/
def AnswersNoBits (s : State) (r : Result) : Prop :=
  ∀ t bits, r = .next t → t.responses ≠ s.responses ++ [.bits bits]

theorem answersNoBits_answer {s u : State} {r : Response} (hu : u.responses = s.responses) (hr : ∀ bits, r ≠ .bits bits) :
    AnswersNoBits s (.next (u.answer r)) := by
  rintro t bits ⟨rfl⟩ h
  rw [State.answer_responses, hu] at h
  exact hr bits (by simpa using h)

theorem AnswersNoBits.prologue {s : State} {body : State → Result} (h : AnswersNoBits s (body s)) :
    AnswersNoBits s (prologue s body) := by
  cases hf : s.fault with
  | some c =>
    rw [prologue_of_fault hf]
    exact answersNoBits_answer rfl (by simp)
  | none => rwa [prologue_of_no_fault hf]

theorem AnswersNoBits.testPortPrologue {s : State} {body : State → Result} (h : AnswersNoBits s (body s)) :
    AnswersNoBits s (testPortPrologue s body) := by
  refine AnswersNoBits.prologue ?_
  cases s.params.testPort with
  | true => exact h
  | false => exact answersNoBits_answer (u := s.setFault .illegalCommand) rfl (by simp)

theorem parse_answersNoBits (s : State) : AnswersNoBits s (exec .parse s) := by
  rw [exec_parse]
  refine AnswersNoBits.prologue ?_
  split
  · obtain ⟨-, e⟩ | ⟨_, _, _, -, -, -, -, e⟩ := parseNewMessage_cases s <;> rw [e] <;>
      exact answersNoBits_answer rfl (by simp [prMoreData, prPartial])
  · obtain ⟨-, e⟩ | ⟨_, -, -, -, e⟩ | ⟨_, -, -, -, e⟩ := parseAField_cases s <;> rw [e] <;>
      exact answersNoBits_answer rfl (by simp [prMoreData, prPartial, prCrcError])
  · obtain ⟨-, e⟩ | ⟨-, e⟩ | ⟨_, -, -, -, e⟩ := parseBField_cases _ _ _ s <;> rw [e] <;>
      exact answersNoBits_answer rfl (by simp [prMoreData, prFull])

theorem syncFound_answersNoBits (kind : SyncKind) (w : Window) (s : State) : AnswersNoBits s (syncFound kind w s) := by
  intro t bits h
  obtain ⟨-, rfl⟩ := syncFound_next h
  simp [prPartial]

theorem acceptAField_answersNoBits (header : MACHeader) (s : State) : AnswersNoBits s (acceptAField header s) := by
  intro t bits h
  obtain ⟨_, -, -, rfl⟩ := acceptAField_next h
  simp [prPartial]

/-- PEEK is the only instruction that answers `Bits`. -/
theorem exec_answersNoBits {i : Instr} (hi : ∀ n, i ≠ .peek n) (s : State) : AnswersNoBits s (exec i s) := by
  have rejected : AnswersNoBits s (rejectCommand s) :=
    AnswersNoBits.prologue (answersNoBits_answer (u := s.setFault .illegalCommand) rfl (by simp))
  cases i with
  | peek n => exact absurd rfl (hi n)
  | parse => exact parse_answersNoBits s
  | reset =>
    rw [exec_reset]
    exact AnswersNoBits.prologue (answersNoBits_answer rfl (by simp))
  | extend b =>
    rw [exec_extend]
    refine AnswersNoBits.prologue ?_
    split <;> exact answersNoBits_answer rfl (by simp)
  | status =>
    rw [exec_status]
    exact AnswersNoBits.prologue (answersNoBits_answer rfl (by simp))
  | avail =>
    rw [exec_avail]
    exact AnswersNoBits.testPortPrologue (answersNoBits_answer rfl (by simp))
  | nextwin =>
    rw [exec_nextwin]
    refine AnswersNoBits.testPortPrologue fun t bits h => ?_
    split at h
    · exact answersNoBits_answer rfl (by simp) t bits h
    · obtain ⟨w, -, hw⟩ := windowThen_next h
      exact answersNoBits_answer (u := s.setCur (s.cur + 1)) rfl (by simp) t bits hw
  | advance n =>
    rw [exec_advance]
    refine AnswersNoBits.testPortPrologue ?_
    split <;> exact answersNoBits_answer rfl (by simp)
  | crc din =>
    rw [exec_crc]
    exact AnswersNoBits.testPortPrologue (answersNoBits_answer rfl (by simp))
  | reservedOp0 _ | reservedOpsABEF _ _ | reservedOpsCDEF _ _ => exact rejected
  | fpSync _ | ppSync _ => exact AnswersNoBits.prologue (syncFound_answersNoBits _ _ s)
  | _ => exact AnswersNoBits.prologue (acceptAField_answersNoBits _ s)

/-! ## PEEK and ADVANCE -/

/-- The bits PEEK answers are as many as its count. -/
theorem exec_peek_bits_length {n : BitVec 12} {s t : State} {bits : List Bool} (h : exec (.peek n) s = .next t)
    (hr : t.responses = s.responses ++ [.bits bits]) : bits.length = countOf n := by
  rw [exec_peek] at h
  obtain ⟨c, -, rfl⟩ | ⟨-, -, rfl⟩ | ⟨-, -, hbody⟩ := testPortPrologue_next h
  · simp at hr
  · simp at hr
  · split at hbody
    · cases hbody
      simp at hr
    · obtain ⟨read, hread, hbody⟩ := peekThen_next hbody
      cases hbody
      obtain rfl : read = bits := by simpa using hr
      exact memRead_length hread

/-- ADVANCE moves the cursor by at most its count. -/
theorem exec_advance_cur_le {n : BitVec 12} {s t : State} (h : exec (.advance n) s = .next t) :
    t.cur ≤ s.cur + countOf n := by
  rw [exec_advance] at h
  obtain ⟨c, -, rfl⟩ | ⟨-, -, rfl⟩ | ⟨-, -, hbody⟩ := testPortPrologue_next h
  · exact Nat.le_add_right _ _
  · exact Nat.le_add_right _ _
  · split at hbody <;> cases hbody
    · exact Nat.le_add_right _ _
    · exact Nat.le_refl _

/-- A step that answers `Bits` runs a PEEK, whose count is the argument of the command word. -/
theorem step_bits_length {s t : State} {c : HostCommand} {rest : List HostCommand} {bits : List Bool}
    (hp : s.port = c :: rest) (h : step s = .next t) (hr : t.responses = s.responses ++ [.bits bits]) :
    opField c.cmd = 0x6#4 ∧ bits.length = countOf (argField c.cmd) := by
  cases hd : decode (.command c) with
  | error e =>
    rw [step_of_decode_error hp hd, ← exec_reservedOp0 0#12] at h
    exact absurd hr (exec_answersNoBits (by simp) (s.setPort rest) t bits h)
  | ok i =>
    rw [step_of_decode_ok hp hd] at h
    by_cases hi : ∃ n, i = .peek n
    · obtain ⟨n, rfl⟩ := hi
      obtain ⟨hop, rfl⟩ := decode_eq_peek hd
      exact ⟨hop, exec_peek_bits_length h hr⟩
    · exact absurd hr (exec_answersNoBits (fun n e => hi ⟨n, e⟩) (s.setPort rest) t bits h)

/-! ## The obligation -/

/-- Settles O60: the count of a carried PEEK or ADVANCE is at most `P_MAX_PEEK`, PEEK answers as many bits, and ADVANCE
moves at most as far. -/
theorem countsStayWithinMaxPeek : Obligations.CountsStayWithinMaxPeek := by
  refine ⟨carries_params, fun s c rest t bits hp hc h hr => ?_, fun s c rest t hp hc hop h => ?_⟩
  · obtain ⟨hop, hlen⟩ := step_bits_length hp h hr
    rw [hlen]
    exact countOf_le_of_carries hc (.inl hop)
  · rw [step_of_decode_ok hp (decode_of_advance hop)] at h
    calc t.cur ≤ s.cur + countOf (argField c.cmd) := exec_advance_cur_le (s := s.setPort rest) h
      _ ≤ s.cur + s.params.maxPeek := Nat.add_le_add_left (countOf_le_of_carries hc (.inr hop)) _

end Sys2Proof.Machine
end

section
/-! PROOFS. 30_encoding.md R80 to R84: the fields of a header byte and of a sync window, and that each of these two forms
decodes to the row it encodes. -/

namespace Sys2Proof.Machine

/-! ## Header bytes -/

/-- The eight payload-size classes. -/
theorem sizeClass_cases (cls : BitVec 3) :
    cls = 0b000#3 ∨ cls = 0b001#3 ∨ cls = 0b010#3 ∨ cls = 0b011#3 ∨
    cls = 0b100#3 ∨ cls = 0b101#3 ∨ cls = 0b110#3 ∨ cls = 0b111#3 := by
  revert cls; decide

/-- The fields of a header byte spell it. -/
theorem headerByte_fields (h : Byte) :
    headerByte (h.extractLsb' 5 3) (h.extractLsb' 4 1) (h.extractLsb' 1 3) (h.extractLsb' 0 1) = h := by
  have hq1 : h.extractLsb' 5 3 ++ h.extractLsb' 4 1 = h.extractLsb' 4 4 :=
    BitVec.extractLsb'_append_extractLsb'_eq_extractLsb' rfl
  have hcls : h.extractLsb' 4 4 ++ h.extractLsb' 1 3 = h.extractLsb' 1 7 :=
    BitVec.extractLsb'_append_extractLsb'_eq_extractLsb' rfl
  rw [headerByte, hq1, hcls]
  exact append_extractLsb' (n := 7) (m := 1) h

/-- A header byte has the fields it is made of. -/
theorem fields_headerByte (tailId : BitVec 3) (q1 : BitVec 1) (cls : BitVec 3) (q2 : BitVec 1) :
    (headerByte tailId q1 cls q2).extractLsb' 5 3 = tailId ∧ (headerByte tailId q1 cls q2).extractLsb' 4 1 = q1 ∧
    (headerByte tailId q1 cls q2).extractLsb' 1 3 = cls ∧ (headerByte tailId q1 cls q2).extractLsb' 0 1 = q2 := by
  revert tailId q1 cls q2
  decide

/-- The table row of these header fields, by their class. -/
def headerRow (tailId : BitVec 3) (q1 : BitVec 1) (cls : BitVec 3) (q2 : BitVec 1) : Instr :=
  match cls[2], cls[1], cls[0] with
  | false, false, false => .sizeClass000 tailId q1 q2
  | false, false, true => .sizeClass001 tailId q1 q2
  | false, true, false => .sizeClass010 tailId q1 q2
  | false, true, true => .sizeClass011 tailId q1 q2
  | true, false, false => .sizeClass100 tailId q1 q2
  | true, false, true => .sizeClass101 tailId q1 q2
  | true, true, false => .sizeClass110 tailId q1 q2
  | true, true, true => .sizeClass111 tailId q1 q2

/-- The decoder reads the row of the byte's fields. -/
theorem decodeHeader_eq_headerRow (h : Byte) :
    decodeHeader h = headerRow (h.extractLsb' 5 3) (h.extractLsb' 4 1) (h.extractLsb' 1 3) (h.extractLsb' 0 1) := by
  have h₃ : (h.extractLsb' 1 3)[2] = h[3] := by simp
  have h₂ : (h.extractLsb' 1 3)[1] = h[2] := by simp
  have h₁ : (h.extractLsb' 1 3)[0] = h[1] := by simp
  rw [decodeHeader, ← h₃, ← h₂, ← h₁]
  rfl

theorem encode_headerRow (tailId : BitVec 3) (q1 : BitVec 1) (cls : BitVec 3) (q2 : BitVec 1) :
    (headerRow tailId q1 cls q2).wellFormed = true ∧
      encode (headerRow tailId q1 cls q2) = .header (headerByte tailId q1 cls q2) := by
  obtain rfl | rfl | rfl | rfl | rfl | rfl | rfl | rfl := sizeClass_cases cls <;> exact ⟨rfl, rfl⟩

/-- A header byte is the one its row encodes. -/
theorem encode_decodeHeader (h : Byte) : (decodeHeader h).wellFormed = true ∧ encode (decodeHeader h) = .header h := by
  have hrow := encode_headerRow (h.extractLsb' 5 3) (h.extractLsb' 4 1) (h.extractLsb' 1 3) (h.extractLsb' 0 1)
  rwa [headerByte_fields, ← decodeHeader_eq_headerRow] at hrow

theorem decodeHeader_headerByte (tailId : BitVec 3) (q1 : BitVec 1) (cls : BitVec 3) (q2 : BitVec 1) :
    decodeHeader (headerByte tailId q1 cls q2) = headerRow tailId q1 cls q2 := by
  obtain ⟨htail, hq1, hcls, hq2⟩ := fields_headerByte tailId q1 cls q2
  rw [decodeHeader_eq_headerRow, htail, hq1, hcls, hq2]

/-- The row of a header with a given class decodes from the byte it encodes to. -/
theorem decode_encode_of_eq_headerRow {i : Instr} {tailId : BitVec 3} {q1 : BitVec 1} {cls : BitVec 3} {q2 : BitVec 1}
    (hi : i = headerRow tailId q1 cls q2) : decode (encode i) = .ok i := by
  obtain ⟨-, henc⟩ := encode_headerRow tailId q1 cls q2
  rw [hi, henc, decode, decodeHeader_headerByte]

/-- The fields of a header byte are its quotients and remainders by powers of two. -/
theorem toNat_headerOfByte (h : Byte) :
    (headerOfByte h).tailId.toNat = h.toNat / 32 ∧ (headerOfByte h).q1.toNat = h.toNat / 16 % 2 ∧
    (headerOfByte h).sizeClass.toNat = h.toNat / 2 % 8 ∧ (headerOfByte h).q2.toNat = h.toNat % 2 := by
  refine ⟨?_, ?_, ?_, ?_⟩ <;> simp only [headerOfByte, BitVec.extractLsb'_toNat, Nat.shiftRight_eq_div_pow] <;> omega

/-- Settles O58: the header of an A-field is defined as that of its low byte, whose fields spell it. -/
theorem headerFieldsKeepTheByte : Obligations.HeaderFieldsKeepTheByte := by
  rintro a h rfl
  exact ⟨rfl, headerByte_fields _, toNat_headerOfByte _⟩

/-- Settles O57, class by class. -/
theorem lengthOfEachSizeClass : Obligations.LengthOfEachSizeClass := by
  intro cls
  obtain rfl | rfl | rfl | rfl | rfl | rfl | rfl | rfl := sizeClass_cases cls <;> rfl

/-! ## Sync windows -/

theorem classifySync_eq_fixed {w : Window} (h : classifySync w = some .fixed) : w.extractLsb' 0 24 = Config.fpSync := by
  unfold classifySync at h
  split at h
  · assumption
  · split at h <;> cases h

theorem classifySync_eq_portable {w : Window} (h : classifySync w = some .portable) :
    w.extractLsb' 0 24 = Config.ppSync := by
  unfold classifySync at h
  split at h
  · cases h
  · split at h
    · assumption
    · cases h

/-- A window that decodes is the one its row encodes. -/
theorem encode_of_decodeWindow {w : Window} {i : Instr} (h : decodeWindow w = .ok i) :
    i.wellFormed = true ∧ encode i = .window w := by
  unfold decodeWindow at h
  split at h <;> cases h
  case h_1 hc =>
    rw [encode, ← classifySync_eq_fixed hc, lead_append_pattern]
    exact ⟨rfl, rfl⟩
  case h_2 hc =>
    rw [encode, ← classifySync_eq_portable hc, lead_append_pattern]
    exact ⟨rfl, rfl⟩

theorem decodeWindow_append_fp (lead : BitVec 40) : decodeWindow (lead ++ Config.fpSync) = .ok (.fpSync lead) := by
  rw [decodeWindow, classifySync_append_fp]
  exact congrArg (Except.ok ∘ Instr.fpSync) (extractLsb'_append_high lead Config.fpSync)

theorem decodeWindow_append_pp (lead : BitVec 40) : decodeWindow (lead ++ Config.ppSync) = .ok (.ppSync lead) := by
  rw [decodeWindow, classifySync_append_pp]
  exact congrArg (Except.ok ∘ Instr.ppSync) (extractLsb'_append_high lead Config.ppSync)

/-- Settles O56: the constants are complements and differ, so one window cannot end in both. -/
theorem syncPatternsAreComplements : Obligations.SyncPatternsAreComplements :=
  ⟨by decide, fun _ ⟨hfp, hpp⟩ => absurd (hfp.symm.trans hpp) (by decide)⟩

end Sys2Proof.Machine
end

section
/-! PROOFS. 30_encoding.md R70 to R73: the sixteen selectors of a command word, read as three kinds of row, and the round
trips between instructions and encoded forms. -/

namespace Sys2Proof.Machine

/-! ## The selectors -/

/-- The selectors whose `arg` must be zero (30_encoding.md R72). -/
abbrev ZeroArgSelector (op : BitVec 4) : Prop :=
  op = 0x1#4 ∨ op = 0x3#4 ∨ op = 0x4#4 ∨ op = 0x5#4 ∨ op = 0x7#4 ∨ op = 0x9#4

theorem ZeroArgSelector.ne_extend {op : BitVec 4} (h : ZeroArgSelector op) : op ≠ 0x2#4 := by
  rintro rfl
  exact absurd h (by decide)

/-- The result of decoding a command word, by the kind of its selector: a row whose `arg` must be zero, EXTEND, or a row
that carries all of `arg`; and what the row encodes to. -/
inductive CommandRead (op : BitVec 4) (arg : BitVec 12) (din : BitVec 64) : Except DecodeError Instr → Prop where
  | zeroArg {i : Instr} (hop : ZeroArgSelector op) (hwf : i.wellFormed = true)
      (henc : encode i = commandOf op 0#12 (if op = 0x9#4 then din else 0#64)) : CommandRead op arg din (withZeroArg arg i)
  | extend (hop : op = 0x2#4) : CommandRead op arg din (decodeExtend arg)
  | carried {i : Instr} (hzero : ¬ZeroArgSelector op) (hextend : op ≠ 0x2#4) (hwf : i.wellFormed = true)
      (henc : encode i = commandOf op arg) : CommandRead op arg din (.ok i)

/-- A selector by its four bits. -/
theorem op_eq_bits (op : BitVec 4) :
    op = BitVec.ofBool op[3] ++ BitVec.ofBool op[2] ++ BitVec.ofBool op[1] ++ BitVec.ofBool op[0] := by
  revert op; decide

theorem commandRead (c : HostCommand) :
    CommandRead (opField c.cmd) (argField c.cmd) c.din (decode (.command c)) := by
  rw [decode, decodeCommand]
  generalize opField c.cmd = op
  generalize argField c.cmd = arg
  have hbits := op_eq_bits op
  split
  all_goals
    rename_i h₃ h₂ h₁ h₀
    rw [h₃, h₂, h₁, h₀] at hbits
    subst hbits
  case h_3 => exact .extend rfl
  case h_2 | h_4 | h_5 | h_6 | h_8 | h_10 => exact .zeroArg (by decide) rfl rfl
  all_goals exact .carried (by decide) (by decide) rfl rfl

/-! ## The round trips, and the words that are refused -/

theorem decodeExtend_append (b : Byte) : decodeExtend (0#4 ++ b) = .ok (.extend b) := by
  have hzero : (0#4 ++ b).extractLsb' 8 4 = 0#4 := extractLsb'_append_high 0#4 b
  have hbyte : (0#4 ++ b).extractLsb' 0 8 = b := extractLsb'_append_low 0#4 b
  rw [decodeExtend, if_pos hzero, hbyte]

/-- Settles O4: a command by its selector, a sync row by its pattern, a header row by its fields. -/
theorem decodeOfEncodeIsIdentity : Obligations.DecodeOfEncodeIsIdentity := by
  intro i hwf
  cases i with
  | reset | parse | status | avail | nextwin | crc _ | peek _ | advance _ | reservedOp0 _ =>
    rw [encode, commandOf, decode, decodeCommand, opField_append, argField_append]
    rfl
  | extend b =>
    rw [encode, commandOf, decode, decodeCommand, opField_append, argField_append]
    exact decodeExtend_append b
  | reservedOpsABEF op arg =>
    have hop : op = 0xA#4 ∨ op = 0xB#4 ∨ op = 0xE#4 ∨ op = 0xF#4 := by simpa [Instr.wellFormed, or_assoc] using hwf
    rw [encode, commandOf, decode, decodeCommand, opField_append, argField_append]
    obtain rfl | rfl | rfl | rfl := hop <;> rfl
  | reservedOpsCDEF op arg =>
    have hop : op = 0xC#4 ∨ op = 0xD#4 := by simpa [Instr.wellFormed] using hwf
    rw [encode, commandOf, decode, decodeCommand, opField_append, argField_append]
    obtain rfl | rfl := hop <;> rfl
  | fpSync lead => exact decodeWindow_append_fp lead
  | ppSync lead => exact decodeWindow_append_pp lead
  | sizeClass000 t q1 q2 => exact decode_encode_of_eq_headerRow (cls := 0b000#3) rfl
  | sizeClass001 t q1 q2 => exact decode_encode_of_eq_headerRow (cls := 0b001#3) rfl
  | sizeClass010 t q1 q2 => exact decode_encode_of_eq_headerRow (cls := 0b010#3) rfl
  | sizeClass011 t q1 q2 => exact decode_encode_of_eq_headerRow (cls := 0b011#3) rfl
  | sizeClass100 t q1 q2 => exact decode_encode_of_eq_headerRow (cls := 0b100#3) rfl
  | sizeClass101 t q1 q2 => exact decode_encode_of_eq_headerRow (cls := 0b101#3) rfl
  | sizeClass110 t q1 q2 => exact decode_encode_of_eq_headerRow (cls := 0b110#3) rfl
  | sizeClass111 t q1 q2 => exact decode_encode_of_eq_headerRow (cls := 0b111#3) rfl

/-- A command word that decodes is the one its row encodes, up to the `din` lines its row does not read. -/
theorem encode_of_decodeCommand {c : HostCommand} {i : Instr} (h : decode (.command c) = .ok i) :
    i.wellFormed = true ∧
      encode i = .command { cmd := c.cmd, din := if opField c.cmd = 0x9#4 then c.din else 0#64 } := by
  have hread := commandRead c
  generalize decode (.command c) = r at hread h
  nth_rw 1 [← op_append_arg c.cmd]
  cases hread with
  | zeroArg hop hwf henc =>
    obtain ⟨harg, rfl⟩ := withZeroArg_ok h
    rw [harg]
    exact ⟨hwf, henc⟩
  | extend hop =>
    obtain ⟨b, harg, rfl⟩ := decodeExtend_ok h
    rw [hop, harg]
    exact ⟨rfl, rfl⟩
  | carried hzero hextend hwf henc =>
    cases h
    rw [if_neg fun hcrc => hzero (by rw [hcrc]; decide)]
    exact ⟨hwf, henc⟩

/-- Settles O5, for each of the three encoded forms. -/
theorem encodeOfDecodeIsTheWord : Obligations.EncodeOfDecodeIsTheWord := by
  refine ⟨fun _ _ => encode_of_decodeCommand, fun _ _ => encode_of_decodeWindow, ?_⟩
  rintro h _ ⟨rfl⟩
  exact encode_decodeHeader h

/-- The decoder refuses a command word exactly for a must-be-zero bit (30_encoding.md R72). -/
theorem decode_eq_mustBeZero_iff (c : HostCommand) : decode (.command c) = .error .mustBeZero ↔
    (argField c.cmd ≠ 0#12 ∧ ZeroArgSelector (opField c.cmd)) ∨
    ((argField c.cmd).extractLsb' 8 4 ≠ 0#4 ∧ opField c.cmd = 0x2#4) := by
  have hread := commandRead c
  generalize decode (.command c) = r at hread ⊢
  cases hread with
  | zeroArg hop hwf henc =>
    simp only [withZeroArg_error, hop, hop.ne_extend, and_true, and_false, or_false]
  | extend hop =>
    have hzero : ¬ZeroArgSelector 0x2#4 := by decide
    simp only [decodeExtend_error, hop, hzero, and_true, and_false, false_or]
  | carried hzero hextend hwf henc => simp [hzero, hextend]

/-- Settles O6: the must-be-zero bits by the kind of the selector, and the step that rejects such a word. -/
theorem nonZeroReservedBitIsIllegal : Obligations.NonZeroReservedBitIsIllegal := by
  refine ⟨decode_eq_mustBeZero_iff, fun s c rest hp hf hd => ?_⟩
  rw [step_of_decode_error hp hd]
  exact rejectCommand_of_no_fault hf

/-- Settles O7, word by word. -/
theorem sampleWordsDecode : Obligations.SampleWordsDecode := ⟨rfl, rfl, rfl, rfl, rfl, rfl, rfl, rfl, rfl⟩

/-- Settles O16: the three rows reject the word, and a block without a fault records IllegalCommand for it. -/
theorem reservedSelectorsAreIllegal : Obligations.ReservedSelectorsAreIllegal := by
  intro s op arg hf
  rw [exec_reservedOp0, exec_reservedOpsABEF, exec_reservedOpsCDEF, rejectCommand_of_no_fault hf]
  exact ⟨rfl, rfl, rfl⟩

end Sys2Proof.Machine
end

section
/-! PROOFS. 30_encoding.md R75: every command word the host issues is answered once. What a step does beside the answer is
read off `Moved`. -/

namespace Sys2Proof.Machine

theorem Moved.port_eq {i : Instr} {s t : State} (h : Moved i s t) : t.port = s.port := by
  cases h <;> rfl

/-- Every instruction answers once. -/
theorem Moved.responses_eq {i : Instr} {s t : State} (h : Moved i s t) : ∃ r, t.responses = s.responses ++ [r] := by
  cases h <;> exact ⟨_, rfl⟩

/-- A step that takes a command makes one of the moves of an instruction, from the state with that command issued. -/
theorem step_moved {s t : State} {c : HostCommand} {rest : List HostCommand} (hp : s.port = c :: rest)
    (h : step s = .next t) : ∃ i, Moved i (s.setPort rest) t := by
  cases hd : decode (.command c) with
  | ok i => exact ⟨i, exec_moved (step_of_decode_ok hp hd ▸ h)⟩
  | error e => exact ⟨_, rejectCommand_moved (step_of_decode_error hp hd ▸ h) 0#12⟩

/-- Settles O10: a step from a cursor in the stream has a next state, which is one of the moves of `Moved`. -/
theorem everyCommandAnswersOnce : Obligations.EveryCommandAnswersOnce := by
  intro s c rest hs hp
  obtain ⟨t, ht⟩ := step_isNext hs
  obtain ⟨i, hmoved⟩ := step_moved hp ht
  obtain ⟨r, hr⟩ := hmoved.responses_eq
  exact ⟨t, r, ht, hr, hmoved.port_eq, hmoved.params_eq⟩

end Sys2Proof.Machine
end

section
/-! PROOFS. 42_frame_decoder.md R175: DRAIN reaches `MoreData`. A measure on the decoder state and the bits available
bounds the results still to come, and every PARSE that does not answer `MoreData` lowers it. -/

namespace Sys2Proof.Machine

/-- How many results without `MoreData` the block can still give: a match and an A-field take 64 bits each, and a B-field
may take none. -/
def resultsLeft (d : DecoderState) (bits : Nat) : Nat :=
  match d with
  | .newMessage => bits / 64 + bits / 128
  | .aField _ => bits / 64 + (bits + 64) / 128
  | .bField _ _ _ => bits / 64 + bits / 128 + 1

/-- The bound of R175. -/
theorem resultsLeft_le (d : DecoderState) (bits : Nat) : resultsLeft d bits ≤ 3 * (bits / 128) + 3 := by
  cases d <;> simp only [resultsLeft] <;> omega

/-- A match is followed by fewer results than the search for it. -/
theorem resultsLeft_aField_lt {bits left : Nat} (h : left + 64 ≤ bits) (sync : SyncWord) :
    resultsLeft (.aField sync) left < resultsLeft .newMessage bits := by
  simp only [resultsLeft]
  omega

theorem resultsLeft_bField_lt {bits : Nat} (h : 64 ≤ bits) (sync : SyncWord) (header : MACHeader) (tail : Tail)
    (len : BitVec 7) : resultsLeft (.bField header tail len) (bits - 64) < resultsLeft (.aField sync) bits := by
  simp only [resultsLeft]
  omega

theorem resultsLeft_dropped_lt {bits : Nat} (h : 64 ≤ bits) (sync : SyncWord) :
    resultsLeft .newMessage (bits - 64) < resultsLeft (.aField sync) bits := by
  simp only [resultsLeft]
  omega

theorem resultsLeft_completed_lt {bits left : Nat} (h : left ≤ bits) (header : MACHeader) (tail : Tail) (len : BitVec 7) :
    resultsLeft .newMessage left < resultsLeft (.bField header tail len) bits := by
  simp only [resultsLeft]
  omega

theorem available_setCur_add (s : State) (n : Nat) : available (s.setCur (s.cur + n)) = available s - n := by
  rw [available_setCur, available]
  omega

@[simp] theorem lastIsMoreData_answer (r : Response) (s : State) : (s.answer r).lastIsMoreData = isMoreData r := by
  simp [State.lastIsMoreData]

/-- The next state of a PARSE answers `MoreData` or has fewer results left. -/
abbrev Progress (s t : State) : Prop :=
  t.lastIsMoreData = true ∨ resultsLeft t.dstate (available t) < resultsLeft s.dstate (available s)

/-- A PARSE of a block without a fault answers, records no fault, and makes progress. -/
theorem exec_parse_progress {s : State} (hf : s.fault = none) :
    ∃ t, exec .parse s = .next t ∧ t.fault = none ∧ Progress s t := by
  rw [exec_parse, prologue_of_no_fault hf]
  cases hd : s.dstate with
  | newMessage =>
    obtain ⟨-, e⟩ | ⟨p, kind, w, hp, hw, -, -, e⟩ := parseNewMessage_cases s
    · exact ⟨_, e, hf, .inl (lastIsMoreData_answer _ _)⟩
    · have hleft : storedBits s.buf - (p + 64) + 64 ≤ available s := by
        have := windowAt_le hw
        rw [available]
        omega
      exact ⟨_, e, hf, .inr (hd ▸ resultsLeft_aField_lt hleft _)⟩
  | aField sync =>
    obtain ⟨-, e⟩ | ⟨a, ha, -, -, e⟩ | ⟨a, ha, -, -, e⟩ := parseAField_cases s
    · exact ⟨_, e, hf, .inl (lastIsMoreData_answer _ _)⟩
    · refine ⟨_, e, hf, .inr ?_⟩
      simpa [hd, available_setCur_add] using resultsLeft_dropped_lt ha sync
    · refine ⟨_, e, hf, .inr ?_⟩
      simpa [hd, available_setCur_add] using resultsLeft_bField_lt ha sync _ _ _
  | bField header tail len =>
    obtain ⟨-, e⟩ | ⟨-, e⟩ | ⟨bits, -, -, -, e⟩ := parseBField_cases header tail len s
    · exact ⟨_, e, hf, .inl (lastIsMoreData_answer _ _)⟩
    · exact ⟨_, e, hf, .inr (hd ▸ resultsLeft_completed_lt (Nat.le_refl _) _ _ _)⟩
    · refine ⟨_, e, hf, .inr ?_⟩
      simpa [hd, available_setCur_add] using resultsLeft_completed_lt (Nat.sub_le _ _) header tail len

/-- A DRAIN with more PARSE commands than results left ends with `MoreData` after at most those results. -/
theorem drainAtMost_of_resultsLeft_lt {k : Nat} {s : State} (hf : s.fault = none)
    (hk : resultsLeft s.dstate (available s) < k) :
    ∃ t, drainAtMost k s = .next t ∧ t.lastIsMoreData = true ∧
      t.responses.length ≤ s.responses.length + resultsLeft s.dstate (available s) + 1 := by
  induction k generalizing s with
  | zero => exact absurd hk (Nat.not_lt_zero _)
  | succ k ih =>
    obtain ⟨u, hu, hfu, hprogress⟩ := exec_parse_progress hf
    obtain ⟨r, hr⟩ := (exec_moved hu).responses_eq
    have hlen : u.responses.length = s.responses.length + 1 := by simp [hr]
    rw [drainAtMost, hu, andThen_next]
    cases hmore : u.lastIsMoreData with
    | true => exact ⟨u, rfl, hmore, by omega⟩
    | false =>
      have hlt : resultsLeft u.dstate (available u) < resultsLeft s.dstate (available s) :=
        hprogress.resolve_left (by simp [hmore])
      obtain ⟨t, ht, hmoret, hlent⟩ := ih hfu (by omega)
      exact ⟨t, ht, hmoret, by omega⟩

/-- Settles O54: DRAIN issues one PARSE more than the results the measure leaves at its start. -/
theorem drainTerminates : Obligations.DrainTerminates := by
  intro s hf
  have hle := resultsLeft_le s.dstate (available s)
  obtain ⟨t, ht, hmore, hlen⟩ := drainAtMost_of_resultsLeft_lt (k := drainBound s) hf (by rw [drainBound]; omega)
  exact ⟨t, ht, hmore, by omega⟩

end Sys2Proof.Machine
end

section
/-! PROOFS. 40_bit_cursor.md R100 to R105: the bit-cursor commands, each run on its prologue, and a multi-byte extend as
the fold of its EXTENDs. -/

namespace Sys2Proof.Machine

/-! ## The command words -/

/-- CRC alone reads the `din` lines (30_encoding.md R70). -/
theorem decode_din {cmd : CmdWord} (hop : opField cmd ≠ 0x9#4) (din din' : BitVec 64) :
    decode (.command { cmd := cmd, din := din }) = decode (.command { cmd := cmd, din := din' }) := by
  have hbits := op_eq_bits (opField cmd)
  simp only [decode, decodeCommand]
  split
  case h_10 h₃ h₂ h₁ h₀ =>
    rw [h₃, h₂, h₁, h₀] at hbits
    exact absurd hbits hop
  all_goals rfl

/-- The word a row encodes to decodes to that row, whatever the `din` lines carry. -/
theorem decode_word {i : Instr} {op : BitVec 4} {arg : BitVec 12} (henc : encode i = commandOf op arg)
    (hop : op ≠ 0x9#4) (hwf : i.wellFormed = true) (din : BitVec 64) :
    decode (.command { cmd := op ++ arg, din := din }) = .ok i := by
  rw [decode_din (by rwa [opField_append]) din 0#64]
  have hdec := decodeOfEncodeIsIdentity i hwf
  rw [henc] at hdec
  exact hdec

theorem selector_append_byte (b : Byte) : (0x20#8 ++ b : CmdWord) = 0x2#4 ++ (0#4 ++ b) := by
  rw [show (0x20#8 : BitVec 8) = 0x2#4 ++ 0#4 from rfl, BitVec.append_assoc, BitVec.cast_eq]

theorem decode_extendWord (b : Byte) (din : BitVec 64) :
    decode (.command { cmd := 0x20#8 ++ b, din := din }) = .ok (.extend b) := by
  rw [selector_append_byte]
  exact decode_word rfl (by decide) rfl din

/-! ## EXTEND -/

theorem overflows_iff {s : State} :
    overflows s = true ↔ ∃ c, s.params.capacity = some c ∧ c < s.buf.length + 1 - s.cur / 8 := by
  cases h : s.params.capacity <;> simp [overflows, h]

theorem overflows_eq_false_of_le {s : State} (h : ∀ c, s.params.capacity = some c → s.buf.length + 1 - s.cur / 8 ≤ c) :
    overflows s = false := by
  refine Bool.eq_false_iff.mpr fun ho => ?_
  obtain ⟨c, hc, hlt⟩ := overflows_iff.mp ho
  exact absurd (h c hc) (Nat.not_le.mpr hlt)

theorem exec_extend_of_fits {s : State} (hf : s.fault = none) (ho : overflows s = false) (b : Byte) :
    exec (.extend b) s = .next ((s.setBuf (s.buf ++ [b])).answer .ok) := by
  rw [exec_extend, prologue_of_no_fault hf, ho]
  rfl

theorem exec_extend_of_overflows {s : State} (hf : s.fault = none) (ho : overflows s = true) (b : Byte) :
    exec (.extend b) s = .next ((s.setFault .bufferOverflow).answer (.faulted .bufferOverflow)) := by
  rw [exec_extend, prologue_of_no_fault hf, ho]
  rfl

/-- Settles O19: whether the byte overflows decides between the two outcomes. -/
theorem extendCommandRule : Obligations.ExtendCommandRule :=
  ⟨decode_extendWord,
    fun _ b hf hfits => exec_extend_of_fits hf (overflows_eq_false_of_le hfits) b,
    fun _ b c hf hc hlt => exec_extend_of_overflows hf (overflows_iff.mpr ⟨c, hc, hlt⟩) b⟩

/-! ## A multi-byte extend (40_bit_cursor.md R101) -/

theorem andThen_assoc (r : Result) (k l : State → Result) :
    andThen (andThen r k) l = andThen r fun s => andThen (k s) l := by
  cases r <;> rfl

/-- Two sequences of commands one after the other are one sequence. -/
theorem runInstrs_append (is js : List Instr) (s : State) :
    andThen (runInstrs is s) (runInstrs js) = runInstrs (is ++ js) s := by
  induction is generalizing s with
  | nil => rfl
  | cons i is ih =>
    calc andThen (andThen (exec i s) (runInstrs is)) (runInstrs js)
        = andThen (exec i s) fun t => andThen (runInstrs is t) (runInstrs js) := andThen_assoc _ _ _
      _ = andThen (exec i s) (runInstrs (is ++ js)) := by simp only [ih]

theorem extendAll_append (bytes more : List Byte) (s : State) :
    andThen (extendAll bytes s) (extendAll more) = extendAll (bytes ++ more) s := by
  rw [extendAll, extendAll, List.map_append]
  exact runInstrs_append _ _ s

/-- With an unbounded stream every EXTEND of a sequence appends its byte and answers `Ok`. -/
theorem extendAll_of_unbounded {s : State} (bytes : List Byte) (hf : s.fault = none) (hcap : s.params.capacity = none) :
    extendAll bytes s =
      .next { s with buf := s.buf ++ bytes, responses := s.responses ++ List.replicate bytes.length .ok } := by
  induction bytes generalizing s with
  | nil => simp [extendAll, runInstrs]
  | cons b bytes ih =>
    have hfits : overflows s = false := overflows_eq_false_of_le (by simp [hcap])
    calc extendAll (b :: bytes) s
        = andThen (exec (.extend b) s) (extendAll bytes) := rfl
      _ = extendAll bytes ((s.setBuf (s.buf ++ [b])).answer .ok) := by rw [exec_extend_of_fits hf hfits, andThen_next]
      _ = _ := by
        rw [ih (s := (s.setBuf (s.buf ++ [b])).answer .ok) hf hcap]
        simp [State.answer, State.setBuf, List.replicate_succ]

/-- Settles O20: the effect by induction on the bytes, the split by that of any two sequences of commands. -/
theorem extendSequenceAppends : Obligations.ExtendSequenceAppends :=
  fun s bytes more hf hcap => ⟨extendAll_of_unbounded bytes hf hcap, extendAll_append bytes more s⟩

/-! ## The test-port commands -/

theorem exec_avail_on {s : State} (hf : s.fault = none) (hp : s.params.testPort = true) :
    exec .avail s = .next (s.answer (.count (available s))) := testPortPrologue_on hf hp _

theorem exec_peek_of_short {n : BitVec 12} {s : State} (hf : s.fault = none) (hp : s.params.testPort = true)
    (h : available s < countOf n) : exec (.peek n) s = .next (s.answer .insufficient) := by
  rw [exec_peek, testPortPrologue_on hf hp, if_pos h, respond_eq]

theorem exec_peek_of_read {n : BitVec 12} {s : State} {bits : List Bool} (hf : s.fault = none)
    (hp : s.params.testPort = true) (h : countOf n ≤ available s) (hbits : memRead s.buf s.cur (countOf n) = some bits) :
    exec (.peek n) s = .next (s.answer (.bits bits)) := by
  rw [exec_peek, testPortPrologue_on hf hp, if_neg (Nat.not_lt.mpr h), peekThen_of_read hbits, respond_eq]

theorem exec_nextwin_of_short {s : State} (hf : s.fault = none) (hp : s.params.testPort = true)
    (h : available s < 64) : exec .nextwin s = .next (s.answer .insufficient) := by
  rw [exec_nextwin, testPortPrologue_on hf hp, if_pos h, respond_eq]

theorem exec_nextwin_of_window {s : State} {w : Window} (hf : s.fault = none) (hp : s.params.testPort = true)
    (h : 64 ≤ available s) (hw : windowAt s.buf s.cur = some w) :
    exec .nextwin s = .next ((s.setCur (s.cur + 1)).answer (.window w)) := by
  rw [exec_nextwin, testPortPrologue_on hf hp, if_neg (Nat.not_lt.mpr h), windowThen_of_window hw, respond_eq]

theorem exec_advance_of_le {n : BitVec 12} {s : State} (hf : s.fault = none) (hp : s.params.testPort = true)
    (h : countOf n ≤ available s) : exec (.advance n) s = .next ((s.setCur (s.cur + countOf n)).answer .ok) := by
  rw [exec_advance, testPortPrologue_on hf hp, if_neg (Nat.not_lt.mpr h), respond_eq]

theorem exec_advance_of_short {n : BitVec 12} {s : State} (hf : s.fault = none) (hp : s.params.testPort = true)
    (h : available s < countOf n) :
    exec (.advance n) s = .next ((s.setFault .cursorOverrun).answer (.faulted .cursorOverrun)) := by
  rw [exec_advance, testPortPrologue_on hf hp, if_pos h, raiseFault_eq]

/-- Settles O21: after RESET the stream is empty and the cursor at 0. -/
theorem availCommandRule : Obligations.AvailCommandRule := by
  refine ⟨?word, fun s hf hp => exec_avail_on hf hp, ?afterReset,
    fun s hf hp => (exec_avail s).trans (testPortPrologue_off hf hp _)⟩
  case word => exact decode_word (op := 0x5#4) (arg := 0#12) rfl (by decide) rfl
  case afterReset =>
    intro s t hf hp h
    rw [exec_reset_of_no_fault hf] at h
    cases h
    exact exec_avail_on hf hp

/-- Settles O22: the bits PEEK answers are those of the read at the cursor. -/
theorem peekCommandRule : Obligations.PeekCommandRule := by
  refine ⟨?word, fun s n hf hp hlt => exec_peek_of_short hf hp hlt, ?stored,
    fun s n hf hp => (exec_peek n s).trans (testPortPrologue_off hf hp _)⟩
  case word => exact fun n => decode_word (i := .peek n) rfl (by decide) rfl
  case stored =>
    intro s n hf hp hle
    obtain ⟨bits, hbits⟩ := memRead_of_le hle
    exact ⟨bits, exec_peek_of_read hf hp (Nat.le_sub_of_add_le' hle) hbits, memRead_length hbits,
      fun k hk => memRead_getElem? hbits hk⟩

/-- Settles O23: a window is the number its 64 bits spell. -/
theorem nextwinCommandRule : Obligations.NextwinCommandRule := by
  refine ⟨?word, fun s hf hp hlt => exec_nextwin_of_short hf hp hlt, ?stored,
    fun s hf hp => (exec_nextwin s).trans (testPortPrologue_off hf hp _)⟩
  case word => exact decode_word (op := 0x7#4) (arg := 0#12) rfl (by decide) rfl
  case stored =>
    intro s hf hp hle
    obtain ⟨bits, hbits⟩ := memRead_of_le hle
    have hwindow : windowAt s.buf s.cur = some (BitVec.ofNat 64 (uint bits)) := by rw [windowAt, hbits, Option.map_some]
    exact ⟨bits, hbits, exec_nextwin_of_window hf hp (Nat.le_sub_of_add_le' hle) hwindow⟩

/-- Settles O24: the available bits decide between the move and the fault. -/
theorem advanceCommandRule : Obligations.AdvanceCommandRule :=
  ⟨fun n => decode_word (i := .advance n) rfl (by decide) rfl,
    fun _ _ hf hp hle => exec_advance_of_le hf hp hle,
    fun _ _ hf hp hlt => exec_advance_of_short hf hp hlt,
    fun s n hf hp => (exec_advance n s).trans (testPortPrologue_off hf hp _)⟩

end Sys2Proof.Machine
end

section
/-! PROOFS. What the bit-cursor commands, STATUS, CRC and the reserved selectors leave unchanged, and 20_memory.md R58: a
read-only command repeated. Each is read off the list of the next states its command can have. -/

namespace Sys2Proof.Machine

/-! ## The commands that move nothing -/

/-- The next states of a command that moves nothing: it answers, and answers the same when it is run again, or it is an
illegal command. -/
inductive Queried (i : Instr) (s : State) : State → Prop where
  | answered (r : Response) (again : exec i (s.answer r) = .next ((s.answer r).answer r)) : Queried i s (s.answer r)
  | illegal (hf : s.fault = none) (hi : i ≠ .status) :
      Queried i s ((s.setFault .illegalCommand).answer (.faulted .illegalCommand))

theorem queried_of_fault {i : Instr} {s : State} {c : FaultCode} (hf : s.fault = some c) :
    Queried i s (s.answer (.faulted c)) :=
  .answered _ (exec_of_fault (s := s.answer (.faulted c)) hf)

/-- A body that only answers, and answers the same when it is run again. -/
abbrev Rereads (body : State → Result) : Prop :=
  ∀ s t, body s = .next t → ∃ r, t = s.answer r ∧ body t = .next (t.answer r)

theorem queried_of_testPortPrologue {i : Instr} {body : State → Result} {s t : State} (hbody : Rereads body)
    (hexec : ∀ s, exec i s = testPortPrologue s body) (hi : i ≠ .status) (h : exec i s = .next t) : Queried i s t := by
  rw [hexec] at h
  obtain ⟨c, hf, rfl⟩ | ⟨hf, -, rfl⟩ | ⟨hf, hp, h⟩ := testPortPrologue_next h
  · exact queried_of_fault hf
  · exact .illegal hf hi
  · obtain ⟨r, rfl, hagain⟩ := hbody s t h
    exact .answered r (by rw [hexec, testPortPrologue_on (s := s.answer r) hf hp, hagain])

theorem queried_of_rejectCommand {i : Instr} {s t : State} (hexec : exec i s = rejectCommand s) (hi : i ≠ .status)
    (h : exec i s = .next t) : Queried i s t := by
  rw [hexec] at h
  obtain ⟨c, hf, rfl⟩ | ⟨hf, h⟩ := prologue_next h
  · exact queried_of_fault hf
  · cases h
    exact .illegal hf hi

theorem exec_status_queried {s t : State} (h : exec .status s = .next t) : Queried .status s t := by
  rw [exec_status] at h
  obtain ⟨c, hf, rfl⟩ | ⟨hf, h⟩ := prologue_next h
  · exact queried_of_fault hf
  · cases h
    exact .answered _ (prologue_of_no_fault (s := s.answer _) hf _)

/-- The test-port body of PEEK reads the stream, which an answer leaves as it is. -/
theorem peek_rereads (n : BitVec 12) : Rereads fun s =>
    if available s < countOf n then respond .insufficient s
    else peekThen (countOf n) s fun bits => respond (.bits bits) s := by
  intro s t h
  dsimp only at h
  split at h
  · rename_i hlt
    cases h
    exact ⟨_, rfl, if_pos hlt⟩
  · rename_i hle
    obtain ⟨bits, hbits, h⟩ := peekThen_next h
    cases h
    exact ⟨_, rfl, (if_neg hle).trans (peekThen_of_read (s := s.answer _) hbits _)⟩

theorem exec_peek_queried {n : BitVec 12} {s t : State} (h : exec (.peek n) s = .next t) : Queried (.peek n) s t :=
  queried_of_testPortPrologue (peek_rereads n) (exec_peek n) (by simp) h

theorem exec_avail_queried {s t : State} (h : exec .avail s = .next t) : Queried .avail s t :=
  queried_of_testPortPrologue (by rintro s t ⟨⟩; exact ⟨_, rfl, rfl⟩) exec_avail (by simp) h

theorem exec_crc_queried {din : BitVec 64} {s t : State} (h : exec (.crc din) s = .next t) : Queried (.crc din) s t :=
  queried_of_testPortPrologue (by rintro s t ⟨⟩; exact ⟨_, rfl, rfl⟩) (exec_crc din) (by simp) h

/-- Settles O26: without a fault the command was no illegal one, so it answered and does again. -/
theorem readOnlyCommandsRepeat : Obligations.ReadOnlyCommandsRepeat := by
  intro i s t _ hi h ht
  have hqueried : Queried i s t := by
    obtain rfl | rfl | ⟨n, rfl⟩ | ⟨din, rfl⟩ := hi
    · exact exec_avail_queried h
    · exact exec_status_queried h
    · exact exec_peek_queried h
    · exact exec_crc_queried h
  cases hqueried with
  | answered r again => exact ⟨r, rfl, again⟩
  | illegal _ _ => cases ht

/-- Settles O27: an answer writes the responses alone, and an illegal command the fault field too. -/
theorem frameOfCommandsThatMoveNothing : Obligations.FrameOfCommandsThatMoveNothing := by
  intro i s t hi h
  have hqueried : Queried i s t := by
    obtain rfl | rfl | ⟨n, rfl⟩ | ⟨din, rfl⟩ | ⟨arg, rfl⟩ | ⟨op, arg, rfl⟩ | ⟨op, arg, rfl⟩ := hi
    · exact exec_status_queried h
    · exact exec_avail_queried h
    · exact exec_peek_queried h
    · exact exec_crc_queried h
    · exact queried_of_rejectCommand (exec_reservedOp0 arg s) (by simp) h
    · exact queried_of_rejectCommand (exec_reservedOpsABEF op arg s) (by simp) h
    · exact queried_of_rejectCommand (exec_reservedOpsCDEF op arg s) (by simp) h
  cases hqueried with
  | answered r again => exact ⟨fun _ => rfl, rfl, rfl, rfl, rfl, rfl, .inl rfl⟩
  | illegal hf hi => exact ⟨fun _ => rfl, rfl, rfl, rfl, rfl, rfl, .inr ⟨hf, hi, rfl⟩⟩

/-! ## NEXTWIN and ADVANCE -/

/-- The next states of NEXTWIN and ADVANCE: the cursor is set and the command answered, or a fault is recorded. -/
inductive CursorSet (i : Instr) (s : State) : State → Prop where
  | answered (c : Nat) (r : Response) : CursorSet i s ((s.setCur c).answer r)
  | illegal (hf : s.fault = none) : CursorSet i s ((s.setFault .illegalCommand).answer (.faulted .illegalCommand))
  | overrun (hf : s.fault = none) (hi : i ≠ .nextwin) :
      CursorSet i s ((s.setFault .cursorOverrun).answer (.faulted .cursorOverrun))

theorem cursorSet_of_testPortPrologue {i : Instr} {body : State → Result} {s t : State}
    (hbody : s.fault = none → body s = .next t → CursorSet i s t) (h : testPortPrologue s body = .next t) :
    CursorSet i s t := by
  obtain ⟨c, -, rfl⟩ | ⟨hf, -, rfl⟩ | ⟨hf, -, h⟩ := testPortPrologue_next h
  · exact .answered s.cur _
  · exact .illegal hf
  · exact hbody hf h

theorem exec_nextwin_cursorSet {s t : State} (h : exec .nextwin s = .next t) : CursorSet .nextwin s t := by
  rw [exec_nextwin] at h
  refine cursorSet_of_testPortPrologue (fun hf h => ?_) h
  split at h
  · cases h
    exact .answered s.cur _
  · obtain ⟨w, -, h⟩ := windowThen_next h
    cases h
    exact .answered _ _

theorem exec_advance_cursorSet {n : BitVec 12} {s t : State} (h : exec (.advance n) s = .next t) :
    CursorSet (.advance n) s t := by
  rw [exec_advance] at h
  refine cursorSet_of_testPortPrologue (fun hf h => ?_) h
  split at h <;> cases h
  · exact .overrun hf (by simp)
  · exact .answered _ _

/-- Settles O28, next state by next state. -/
theorem frameOfCursorCommands : Obligations.FrameOfCursorCommands := by
  intro i s t hi h
  have hset : CursorSet i s t := by
    obtain rfl | ⟨n, rfl⟩ := hi
    · exact exec_nextwin_cursorSet h
    · exact exec_advance_cursorSet h
  cases hset with
  | answered c r => exact ⟨fun _ => rfl, rfl, rfl, rfl, rfl, .inl rfl⟩
  | illegal hf => exact ⟨fun _ => rfl, rfl, rfl, rfl, rfl, .inr ⟨hf, rfl, .inl rfl⟩⟩
  | overrun hf hi => exact ⟨fun _ => rfl, rfl, rfl, rfl, rfl, .inr ⟨hf, rfl, .inr ⟨rfl, hi⟩⟩⟩

/-! ## EXTEND -/

/-- What EXTEND can do: answer `Faulted` on a faulted block, record an overflow, or append its byte. -/
theorem exec_extend_next {b : Byte} {s t : State} (h : exec (.extend b) s = .next t) :
    (∃ c, s.fault = some c ∧ t = s.answer (.faulted c)) ∨
    (s.fault = none ∧ overflows s = true ∧ t = (s.setFault .bufferOverflow).answer (.faulted .bufferOverflow)) ∨
    (s.fault = none ∧ overflows s = false ∧ t = (s.setBuf (appendByte b s.buf)).answer .ok) := by
  rw [exec_extend] at h
  obtain h | ⟨hf, h⟩ := prologue_next h
  · exact .inl h
  · split at h <;> cases h
    · rename_i ho
      exact .inr (.inl ⟨hf, ho, rfl⟩)
    · rename_i ho
      exact .inr (.inr ⟨hf, Bool.eq_false_iff.mpr ho, rfl⟩)

/-- Settles O29: an append stores at the end of the stream and leaves every other byte. -/
theorem frameOfExtend : Obligations.FrameOfExtend := by
  intro b s t h
  obtain ⟨c, -, rfl⟩ | ⟨hf, -, rfl⟩ | ⟨-, -, rfl⟩ := exec_extend_next h
  · exact ⟨fun _ _ => rfl, rfl, rfl, rfl, rfl, .inl rfl⟩
  · exact ⟨fun _ _ => rfl, rfl, rfl, rfl, rfl, .inr ⟨hf, rfl, rfl⟩⟩
  · exact ⟨fun _ ha => readByte_appendByte_other ha, rfl, rfl, rfl, rfl, .inl rfl⟩

end Sys2Proof.Machine
end

section
/-! PROOFS. The obligations of 41_crc.md, each read off one form of the bit step: it takes the bit in at the low end and
XORs the polynomial when the top bit was 1 (`crcStep_eq`). The step is linear (R133, second form), it multiplies by `x`
and adds the bit modulo the polynomial (R133, first form), and `crcUnstep` undoes it (R134). -/

namespace Sys2Proof.Machine

/-! ## The bit step -/

/-- The polynomial where the top bit is 1. -/
def polyIf (top : Bool) : BitVec 16 := if top then Config.crcPoly else 0#16

theorem crcStep_eq (r : BitVec 16) (bit : Bool) : crcStep r bit = r.shiftConcat bit ^^^ polyIf r.msb := by
  have hshift : (r <<< 1) ||| (BitVec.ofBool bit).setWidth 16 = r.shiftConcat bit := by
    ext i hi
    obtain rfl | hpos := Nat.eq_zero_or_pos i
    · simp [BitVec.getElem_shiftConcat]
    · simp [BitVec.getElem_shiftConcat, hpos.ne']
  rw [crcStep, hshift]
  cases r.msb <;> simp [polyIf]

theorem polyIf_xor (a b : Bool) : polyIf (a ^^ b) = polyIf a ^^^ polyIf b := by
  cases a <;> cases b <;> rfl

theorem shiftConcat_xor (r q : BitVec 16) (a b : Bool) :
    (r ^^^ q).shiftConcat (a ^^ b) = r.shiftConcat a ^^^ q.shiftConcat b := by
  ext i hi
  by_cases hzero : i = 0 <;> simp [BitVec.getElem_shiftConcat, hzero]

/-! ## Affinity (R133, second form) -/

theorem crcStep_xor (r q : BitVec 16) (a b : Bool) : crcStep (r ^^^ q) (a ^^ b) = crcStep r a ^^^ crcStep q b := by
  rw [crcStep_eq, crcStep_eq, crcStep_eq, shiftConcat_xor, BitVec.msb_xor, polyIf_xor]
  ac_rfl

theorem crcSteps_xor (v w : BitVec 64) (r q : BitVec 16) (k : Nat) :
    crcSteps (v ^^^ w) (r ^^^ q) k = crcSteps v r k ^^^ crcSteps w q k := by
  induction k generalizing r q with
  | zero => rfl
  | succ k ih => rw [crcSteps, BitVec.getLsbD_xor, crcStep_xor, ih, crcSteps, crcSteps]

/-- The last register. -/
theorem crc16_xor_crcXor (blk : BitVec 64) :
    crc16 blk ^^^ Config.crcXor = crcSteps blk (blk.extractLsb' 48 16) 48 := by
  rw [crc16, BitVec.xor_assoc, BitVec.xor_self, BitVec.xor_zero]

/-- Settles O35: the register is linear in the block, and of the three final XORs one is left over. -/
theorem crcIsAffine : Obligations.CrcIsAffine := by
  intro v w
  have hseed : (v ^^^ w).extractLsb' 48 16 = v.extractLsb' 48 16 ^^^ w.extractLsb' 48 16 := BitVec.extractLsb'_xor
  have hcancel : crc16 w ^^^ 0x0001#16 = crcSteps w (w.extractLsb' 48 16) 48 := crc16_xor_crcXor w
  rw [BitVec.xor_assoc, hcancel, crc16, hseed, crcSteps_xor, crc16]
  ac_rfl

/-! ## The remainder by the polynomial (R133, first form) -/

section
open Polynomial

/-- The polynomial of a vector's bits `n − 1` to 0 over GF(2) (41_crc.md R133's `M_v` is `bitsPoly v 64`). -/
noncomputable def bitsPoly {w : Nat} (v : BitVec w) (n : Nat) : (ZMod 2)[X] :=
  ∑ i ∈ Finset.range n, if v.getLsbD i then X ^ i else 0

/-- R133's `G`. -/
noncomputable def crcG : (ZMod 2)[X] := X ^ 16 + X ^ 10 + X ^ 8 + X ^ 7 + X ^ 3 + 1

theorem crcG_monic : crcG.Monic := by unfold crcG; monicity!

theorem degree_crcG : crcG.degree = 16 := by unfold crcG; compute_degree!

theorem bitsPoly_zero {w : Nat} (v : BitVec w) : bitsPoly v 0 = 0 := Finset.sum_range_zero _

theorem bitsPoly_succ {w : Nat} (v : BitVec w) (n : Nat) :
    bitsPoly v (n + 1) = bitsPoly v n + if v.getLsbD n then X ^ n else 0 := Finset.sum_range_succ _ n

theorem bitsPoly_xor {w : Nat} (v u : BitVec w) (n : Nat) : bitsPoly (v ^^^ u) n = bitsPoly v n + bitsPoly u n := by
  rw [bitsPoly, bitsPoly, bitsPoly, ← Finset.sum_add_distrib]
  refine Finset.sum_congr rfl fun i _ => ?_
  rw [BitVec.getLsbD_xor]
  cases v.getLsbD i <;> cases u.getLsbD i <;> simp [CharTwo.add_self_eq_zero]

theorem degree_bitsPoly_lt {w : Nat} (v : BitVec w) (n : Nat) : (bitsPoly v n).degree < n := by
  rw [← mem_degreeLT]
  refine Submodule.sum_mem _ fun i hi => ?_
  split
  · exact mem_degreeLT.mpr ((degree_X_pow_le i).trans_lt (by exact_mod_cast Finset.mem_range.mp hi))
  · exact Submodule.zero_mem _

/-- A vector split at bit `m`. -/
theorem bitsPoly_add {w : Nat} (v : BitVec w) (m n : Nat) :
    bitsPoly v (m + n) = X ^ m * bitsPoly (v.extractLsb' m n) n + bitsPoly v m := by
  rw [bitsPoly, Finset.sum_range_add, add_comm, bitsPoly, Finset.mul_sum]
  refine congrArg (· + _) (Finset.sum_congr rfl fun i hi => ?_)
  simp [Finset.mem_range.mp hi, pow_add]

/-- Shifting a bit in multiplies by `x` and adds the bit, the top bit moved out. -/
theorem bitsPoly_shiftConcat (r : BitVec 16) (bit : Bool) :
    X * bitsPoly r 16 + (if bit then 1 else 0) = bitsPoly (r.shiftConcat bit) 16 + if r.msb then X ^ 16 else 0 := by
  have hlow : bitsPoly (r.shiftConcat bit) 16 = X * bitsPoly r 15 + if bit then 1 else 0 := by
    rw [bitsPoly, Finset.sum_range_succ', bitsPoly, Finset.mul_sum]
    refine congrArg₂ (· + ·) (Finset.sum_congr rfl fun i hi => ?_) (by simp)
    have hi' : i + 1 < 16 := Nat.succ_lt_succ (Finset.mem_range.mp hi)
    simp only [BitVec.getLsbD_shiftConcat, hi', pow_succ', mul_ite, mul_zero]
    simp
  have htop : X * bitsPoly r 16 = X * bitsPoly r 15 + if r.msb then X ^ 16 else 0 := by
    rw [bitsPoly_succ, mul_add, mul_ite, mul_zero, ← pow_succ', BitVec.msb_eq_getLsbD_last]
  rw [hlow, htop, add_right_comm]

/-- `CRC_POLY` is `G` without its `x^16`. -/
theorem bitsPoly_crcPoly : X ^ 16 + bitsPoly Config.crcPoly 16 = crcG := by
  have hpoly : bitsPoly Config.crcPoly 16 = 1 + X ^ 3 + X ^ 7 + X ^ 8 + X ^ 10 := by
    simp [bitsPoly, Finset.sum_range_succ, Config.crcPoly]
  rw [hpoly, crcG]
  ring

/-- The bit step is `r·x + bit`, less `G` when an `x^16` appears. -/
theorem bitsPoly_crcStep (r : BitVec 16) (bit : Bool) :
    X * bitsPoly r 16 + (if bit then 1 else 0) = bitsPoly (crcStep r bit) 16 + if r.msb then crcG else 0 := by
  rw [bitsPoly_shiftConcat, crcStep_eq, bitsPoly_xor, ← bitsPoly_crcPoly]
  cases r.msb with
  | false => simp [polyIf, bitsPoly]
  | true =>
    have htwice : bitsPoly Config.crcPoly 16 + bitsPoly Config.crcPoly 16 = 0 := CharTwo.add_self_eq_zero _
    simp only [polyIf, if_true]
    linear_combination -htwice

/-- The register after the last `k` bits is the register before, times `x^k`, plus those bits, modulo `G`. -/
theorem crcSteps_mod (blk : BitVec 64) (r : BitVec 16) (k : Nat) :
    crcG ∣ X ^ k * bitsPoly r 16 + bitsPoly blk k - bitsPoly (crcSteps blk r k) 16 := by
  induction k generalizing r with
  | zero =>
    rw [crcSteps, pow_zero, one_mul, bitsPoly_zero, add_zero, sub_self]
    exact dvd_zero crcG
  | succ k ih =>
    have hstep := bitsPoly_crcStep r (blk.getLsbD k)
    have hbit : (if blk.getLsbD k then X ^ k else 0 : (ZMod 2)[X]) = X ^ k * if blk.getLsbD k then 1 else 0 := by simp
    have hdvd : crcG ∣ if r.msb then crcG else 0 := by split <;> simp
    rw [crcSteps, bitsPoly_succ blk, hbit]
    convert dvd_add (ih (crcStep r (blk.getLsbD k))) (hdvd.mul_left (X ^ k)) using 1
    linear_combination X ^ k * hstep

/-- Settles O36: the last register differs from the block by a multiple of `G` and has a smaller degree. -/
theorem crcIsPolynomialRemainder : Obligations.CrcIsPolynomialRemainder := by
  intro v
  have hreg : crc16 v ^^^ 0x0001#16 = crcSteps v (v.extractLsb' 48 16) 48 := crc16_xor_crcXor v
  have hsplit : bitsPoly v 64 = X ^ 48 * bitsPoly (v.extractLsb' 48 16) 16 + bitsPoly v 48 := bitsPoly_add v 48 16
  have hmod : crcG ∣ bitsPoly v 64 - bitsPoly (crc16 v ^^^ 0x0001#16) 16 := by
    rw [hsplit, hreg]
    exact crcSteps_mod v _ 48
  have hdeg : (bitsPoly (crc16 v ^^^ 0x0001#16) 16).degree < crcG.degree := by
    rw [degree_crcG]
    exact degree_bitsPoly_lt _ 16
  change bitsPoly (crc16 v ^^^ 0x0001#16) 16 = bitsPoly v 64 %ₘ crcG
  rw [modByMonic_eq_of_dvd_sub crcG_monic hmod, (modByMonic_eq_self_iff crcG_monic).mpr hdeg]

end

/-! ## The seed (R134) -/

/-- Undoing a step XORs the polynomial where the top bit was 1, shifts the low bit out and puts the top bit back. -/
theorem crcUnstep_eq (r : BitVec 16) (bit : Bool) :
    crcUnstep r bit = BitVec.cons (r.getLsbD 0 ^^ bit) ((r ^^^ polyIf (r.getLsbD 0 ^^ bit)).extractLsb' 1 15) := by
  have hcons (u : BitVec 16) (top : Bool) :
      (u >>> 1) ||| (BitVec.ofBool top).setWidth 16 <<< 15 = BitVec.cons top (u.extractLsb' 1 15) := by
    ext i hi
    by_cases htop : i = 15
    · subst htop
      simp [BitVec.getElem_cons]
    · simp [BitVec.getElem_cons, htop, show i < 15 by omega]
  rw [crcUnstep, hcons]
  cases r.getLsbD 0 ^^ bit <;> simp [polyIf]

theorem shiftConcat_cons (top : Bool) (u : BitVec 16) :
    (BitVec.cons top (u.extractLsb' 1 15)).shiftConcat (u.getLsbD 0) = u := by
  ext i hi
  obtain rfl | hpos := Nat.eq_zero_or_pos i
  · simp [BitVec.getElem_shiftConcat]
  · simp [BitVec.getElem_shiftConcat, BitVec.getElem_cons, hpos.ne', show i - 1 ≠ 15 by omega,
      show 1 + (i - 1) = i by omega, BitVec.getLsbD_eq_getElem hi]

/-- The polynomial's constant term is 1, so the low bit of a register tells the top bit the step moved out. -/
theorem getLsbD_zero_xor_polyIf (r : BitVec 16) (top : Bool) : (r ^^^ polyIf top).getLsbD 0 = (r.getLsbD 0 ^^ top) := by
  cases top <;> simp [polyIf, Config.crcPoly]

/-- `crcUnstep` is a right inverse of the bit step. -/
theorem crcStep_crcUnstep (r : BitVec 16) (bit : Bool) : crcStep (crcUnstep r bit) bit = r := by
  have hlow : (r ^^^ polyIf (r.getLsbD 0 ^^ bit)).getLsbD 0 = bit := by
    rw [getLsbD_zero_xor_polyIf, ← Bool.xor_assoc, Bool.xor_self, Bool.false_xor]
  have hshift := shiftConcat_cons (r.getLsbD 0 ^^ bit) (r ^^^ polyIf (r.getLsbD 0 ^^ bit))
  rw [hlow] at hshift
  rw [crcStep_eq, crcUnstep_eq, hshift, BitVec.msb_cons, BitVec.xor_assoc, BitVec.xor_self, BitVec.xor_zero]

/-- The steps over a block undo `crcUnsteps` over its low bits. -/
theorem crcSteps_crcUnsteps {v : BitVec 64} {blk : BitVec 48} (r : BitVec 16) {j k : Nat}
    (hbits : ∀ i < j + k, v.getLsbD i = blk.getLsbD i) :
    crcSteps v (crcUnsteps blk r j k) (j + k) = crcSteps v r j := by
  induction k generalizing r j with
  | zero => rfl
  | succ k ih =>
    rw [crcUnsteps, ← Nat.add_assoc, Nat.add_right_comm, ih _ fun i hi => hbits i (by omega), crcSteps,
      hbits j (by omega), crcStep_crcUnstep]

theorem crcSteps_setWidth_crcUnsteps (block : BitVec 48) (r : BitVec 16) :
    crcSteps (block.setWidth 64) (crcUnsteps block r 0 48) 48 = r :=
  crcSteps_crcUnsteps (j := 0) (k := 48) r fun i hi => by simp [show i < 64 by omega]

/-- The steps read the block's low bits alone. -/
theorem crcSteps_congr {v w : BitVec 64} (r : BitVec 16) {k : Nat} (h : ∀ i < k, v.getLsbD i = w.getLsbD i) :
    crcSteps v r k = crcSteps w r k := by
  induction k generalizing r with
  | zero => rfl
  | succ k ih => rw [crcSteps, crcSteps, h k k.lt_succ_self, ih _ fun i hi => h i (Nat.lt_succ_of_lt hi)]

theorem crc16_append (seed : BitVec 16) (block : BitVec 48) :
    crc16 (seed ++ block) = crcSteps (block.setWidth 64) seed 48 ^^^ Config.crcXor := by
  have hseed : (seed ++ block).extractLsb' 48 16 = seed := extractLsb'_append_high seed block
  have hlow : ∀ i < 48, (seed ++ block).getLsbD i = (block.setWidth 64).getLsbD i := fun i hi => by
    rw [BitVec.getLsbD_append, if_pos hi, BitVec.getLsbD_setWidth,
      decide_eq_true (Nat.lt_trans hi (by decide)), Bool.true_and]
  rw [crc16, hseed, crcSteps_congr _ hlow]

/-- The block is valid exactly when its last register is `CRC_XOR`. -/
theorem crc16_append_eq_zero_iff (seed : BitVec 16) (block : BitVec 48) :
    crc16 (seed ++ block) = 0x0000#16 ↔ crcSteps (block.setWidth 64) seed 48 = Config.crcXor := by
  rw [crc16_append, BitVec.xor_eq_zero_iff]

/-- Every last register comes from one seed: `crcUnsteps` finds one, and a map of a finite type onto itself is
injective. -/
theorem crcSteps_injective (block : BitVec 48) :
    Function.Injective fun seed => crcSteps (block.setWidth 64) seed 48 :=
  Finite.injective_iff_surjective.mpr fun r => ⟨_, crcSteps_setWidth_crcUnsteps block r⟩

/-- Settles O37: the seed is the model's `crcSeed`. -/
theorem seedExistsAndIsUnique : Obligations.SeedExistsAndIsUnique := by
  intro block
  have hseed : crcSteps (block.setWidth 64) (crcSeed block) 48 = Config.crcXor :=
    crcSteps_setWidth_crcUnsteps block Config.crcXor
  refine ⟨crcSeed block, (crc16_append_eq_zero_iff _ _).mpr hseed, fun other hother => ?_⟩
  exact crcSteps_injective block (((crc16_append_eq_zero_iff _ _).mp hother).trans hseed.symm)

/-! ## The CRC command (R131) -/

/-- Leading zeros leave a zero register zero. -/
theorem crcSteps_zero_of_leading_zeros {blk : BitVec 64} {j : Nat} (k : Nat)
    (h : ∀ i, j ≤ i → blk.getLsbD i = false) :
    crcSteps blk 0#16 (j + k) = crcSteps blk 0#16 j := by
  induction k with
  | zero => rfl
  | succ k ih =>
    have hzero : crcStep 0#16 false = 0#16 := by decide
    rw [← Nat.add_assoc, crcSteps, h _ (Nat.le_add_right j k), hzero, ih]

theorem crc16_zero : crc16 0#64 = 0x0001#16 := by
  have hsteps : crcSteps 0#64 0#16 48 = 0#16 :=
    crcSteps_zero_of_leading_zeros (j := 0) 48 fun _ _ => BitVec.getLsbD_zero
  exact congrArg (· ^^^ Config.crcXor) hsteps

theorem crc16_one : crc16 1#64 = 0x0000#16 := by
  have hhigh : ∀ i, 1 ≤ i → (1#64).getLsbD i = false := fun i hi => by
    simp [BitVec.getLsbD_one, show i ≠ 0 by omega]
  have hsteps : crcSteps 1#64 0#16 48 = 1#16 := crcSteps_zero_of_leading_zeros (j := 1) 47 hhigh
  exact congrArg (· ^^^ Config.crcXor) hsteps

/-- Settles O25: the word is the one CRC encodes to; the answer is the prologue's on either side of the test port. -/
theorem crcCommandRule : Obligations.CrcCommandRule := by
  refine ⟨fun din => decodeOfEncodeIsIdentity (.crc din) rfl, crc16_zero, crc16_one, fun s din hf hp => ?_,
    fun s din hf hp => ?_⟩
  · rw [exec_crc, testPortPrologue_on hf hp, respond_eq]
    rfl
  · rw [exec_crc, testPortPrologue_off hf hp]

end Sys2Proof.Machine
end

section
/-! PROOFS. 42_frame_decoder.md R150 to R165: the next state of PARSE in each decoder state, once by the condition it is
reached under and once as the list of all of them, and the obligations that state these rules. -/

namespace Sys2Proof.Machine

/-! ## The fields of an A-field (R158, R160) -/

theorem extractLsb'_extractLsb'_low {n m i k : Nat} (x : BitVec n) (h : i + k ≤ m) :
    (x.extractLsb' 0 m).extractLsb' i k = x.extractLsb' i k := by
  refine BitVec.eq_of_getLsbD_eq fun j hj => ?_
  simp [hj, show i + j < m by omega]

theorem headerOf_eq (a : Window) : headerOf a =
    { tailId := a.extractLsb' 5 3, q1 := a.extractLsb' 4 1, sizeClass := a.extractLsb' 1 3, q2 := a.extractLsb' 0 1 } := by
  simp (disch := omega) only [headerOf, headerOfByte, headerByteOf, extractLsb'_extractLsb'_low]

theorem available_of_windowAt_cur {s : State} {a : Window} (ha : windowAt s.buf s.cur = some a) : 64 ≤ available s := by
  have := windowAt_le ha
  rw [available]
  omega

/-! ## The arm of each decoder state (R150) -/

section
variable {s : State} (hf : s.fault = none)
include hf

theorem exec_parse_newMessage (hd : s.dstate = .newMessage) : exec .parse s = parseNewMessage s := by
  rw [exec_parse, prologue_of_no_fault hf, hd]

theorem exec_parse_aField {sync : SyncWord} (hd : s.dstate = .aField sync) : exec .parse s = parseAField s := by
  rw [exec_parse, prologue_of_no_fault hf, hd]

theorem exec_parse_bField {header : MACHeader} {tail : Tail} {len : BitVec 7} (hd : s.dstate = .bField header tail len) :
    exec .parse s = parseBField header tail len s := by
  rw [exec_parse, prologue_of_no_fault hf, hd]

/-! ## NewMessage (R151 to R154) -/

theorem exec_parse_of_no_match (hd : s.dstate = .newMessage)
    (hr : ∀ p, s.cur ≤ p → p + 64 ≤ storedBits s.buf → Rejected s.buf p) :
    exec .parse s = .next ((s.setCur (s.cur + (available s - 63))).answer prMoreData) := by
  rw [exec_parse_newMessage hf hd, parseNewMessage, scan_of_rejected hr (by omega)]
  rfl

theorem exec_parse_of_first_match {p : Nat} {kind : SyncKind} {w : Window} (hd : s.dstate = .newMessage) (hp : s.cur ≤ p)
    (hw : windowAt s.buf p = some w) (hc : classifySync w = some kind)
    (hr : ∀ q, s.cur ≤ q → q < p → Rejected s.buf q) :
    exec .parse s =
      .next (((s.setCur (p + 64)).setDstate (.aField { kind := kind, raw := w })).answer prPartial) := by
  have hle := windowAt_le hw
  have ha : 64 ≤ available (s.setCur p) := by rw [available_setCur]; omega
  rw [exec_parse_newMessage hf hd, parseNewMessage, scan_of_first_match hp hw hc hr (by omega)]
  exact syncFound_eq ha

/-! ## AField (R155 to R161) -/

theorem exec_parse_of_short_aField {sync : SyncWord} (hd : s.dstate = .aField sync) (ha : available s < 64) :
    exec .parse s = .next (s.answer prMoreData) := by
  rw [exec_parse_aField hf hd, parseAField, if_pos ha, respond_eq]

theorem exec_parse_of_stored_aField {sync : SyncWord} {a : Window} (hd : s.dstate = .aField sync)
    (ha : windowAt s.buf s.cur = some a) :
    exec .parse s = if crc16 a ≠ 0x0000#16 then dropCandidate s else acceptAField (headerOf a) s := by
  have hv := available_of_windowAt_cur ha
  rw [exec_parse_aField hf hd, parseAField, if_neg (Nat.not_lt.mpr hv), windowThen_of_window ha]

theorem exec_parse_of_crc_failure {sync : SyncWord} {a : Window} (hd : s.dstate = .aField sync)
    (ha : windowAt s.buf s.cur = some a) (hcrc : crc16 a ≠ 0x0000#16) :
    exec .parse s = .next (((s.setCur (s.cur + 64)).setDstate .newMessage).answer prCrcError) := by
  rw [exec_parse_of_stored_aField hf hd ha, if_pos hcrc, dropCandidate_eq (available_of_windowAt_cur ha)]

theorem exec_parse_of_crc_valid {sync : SyncWord} {a : Window} (hd : s.dstate = .aField sync)
    (ha : windowAt s.buf s.cur = some a) (hcrc : crc16 a = 0x0000#16) :
    exec .parse s = acceptAField (headerOf a) s := by
  rw [exec_parse_of_stored_aField hf hd ha, if_neg (not_not_intro hcrc)]

theorem exec_parse_of_valid_aField {sync : SyncWord} {a : Window} (hd : s.dstate = .aField sync)
    (ha : windowAt s.buf s.cur = some a) (hcrc : crc16 a = 0x0000#16) :
    exec .parse s = .next (((s.setCur (s.cur + 64)).setDstate
      (.bField (headerOf a) (tailOf a) (bLen (headerOf a).sizeClass))).answer prPartial) := by
  rw [exec_parse_of_crc_valid hf hd ha hcrc, acceptAField_eq ha (available_of_windowAt_cur ha)]

/-! ## BField (R162 to R165) -/

theorem exec_parse_of_short_bField {header : MACHeader} {tail : Tail} {len : BitVec 7}
    (hd : s.dstate = .bField header tail len) (ha : available s < len.toNat) :
    exec .parse s = .next (s.answer prMoreData) := by
  rw [exec_parse_bField hf hd, parseBField, if_pos ha, respond_eq]

theorem exec_parse_of_no_payload {header : MACHeader} {tail : Tail} (hd : s.dstate = .bField header tail 0#7) :
    exec .parse s =
      .next ((s.setDstate .newMessage).answer (prFull { header := header, tail := tail, payload := none })) := by
  rw [exec_parse_bField hf hd, parseBField, if_neg (by simp), if_pos rfl, completeFrame_eq]

theorem exec_parse_of_payload {header : MACHeader} {tail : Tail} {len : BitVec 7} {bits : List Bool}
    (hd : s.dstate = .bField header tail len) (hz : len ≠ 0#7) (hb : memRead s.buf s.cur len.toNat = some bits) :
    exec .parse s = .next (((s.setCur (s.cur + len.toNat)).setDstate .newMessage).answer
      (prFull { header := header, tail := tail, payload := some bits })) := by
  have hle : len.toNat ≤ available s := by
    have := memRead_le hb
    rw [available]
    omega
  rw [exec_parse_bField hf hd, parseBField, if_neg (Nat.not_lt.mpr hle), if_neg hz, peekThen_of_read hb,
    advanceThen_of_le hle, completeFrame_eq]

end

/-! ## All next states of a PARSE -/

/-- What the next state of a PARSE can be. -/
inductive Parsed (s : State) : State → Prop where
  | faulted (c : FaultCode) (hf : s.fault = some c) : Parsed s (s.answer (.faulted c))
  | exhausted (hd : s.dstate = .newMessage)
      (hr : ∀ p, s.cur ≤ p → p + 64 ≤ storedBits s.buf → Rejected s.buf p) :
      Parsed s ((s.setCur (s.cur + (available s - 63))).answer prMoreData)
  | matched (p : Nat) (kind : SyncKind) (w : Window) (hd : s.dstate = .newMessage) (hp : s.cur ≤ p)
      (hw : windowAt s.buf p = some w) (hc : classifySync w = some kind)
      (hr : ∀ q, s.cur ≤ q → q < p → Rejected s.buf q) :
      Parsed s (((s.setCur (p + 64)).setDstate (.aField { kind := kind, raw := w })).answer prPartial)
  | waited (hd : s.dstate ≠ .newMessage) : Parsed s (s.answer prMoreData)
  | dropped (sync : SyncWord) (a : Window) (hd : s.dstate = .aField sync) (ha : windowAt s.buf s.cur = some a)
      (hcrc : crc16 a ≠ 0x0000#16) :
      Parsed s (((s.setCur (s.cur + 64)).setDstate .newMessage).answer prCrcError)
  | accepted (sync : SyncWord) (a : Window) (hd : s.dstate = .aField sync) (ha : windowAt s.buf s.cur = some a)
      (hcrc : crc16 a = 0x0000#16) :
      Parsed s (((s.setCur (s.cur + 64)).setDstate
        (.bField (headerOf a) (tailOf a) (bLen (headerOf a).sizeClass))).answer prPartial)
  | completedEmpty (header : MACHeader) (tail : Tail) (hd : s.dstate = .bField header tail 0#7) :
      Parsed s ((s.setDstate .newMessage).answer (prFull { header := header, tail := tail, payload := none }))
  | completed (header : MACHeader) (tail : Tail) (len : BitVec 7) (bits : List Bool)
      (hd : s.dstate = .bField header tail len) (hz : len ≠ 0#7) (hb : memRead s.buf s.cur len.toNat = some bits) :
      Parsed s (((s.setCur (s.cur + len.toNat)).setDstate .newMessage).answer
        (prFull { header := header, tail := tail, payload := some bits }))

/-- Every next state of a PARSE is one of those of `Parsed`. -/
theorem exec_parse_parsed {s t : State} (h : exec .parse s = .next t) : Parsed s t := by
  cases hf : s.fault with
  | some c => rw [exec_parse, prologue_of_fault hf] at h; cases h; exact .faulted c hf
  | none =>
    cases hd : s.dstate with
    | newMessage =>
      rw [exec_parse_newMessage hf hd] at h
      obtain ⟨hr, e⟩ | ⟨p, kind, w, hp, hw, hc, hr, e⟩ := parseNewMessage_cases s <;> rw [e] at h <;> cases h
      · exact .exhausted hd hr
      · exact .matched p kind w hd hp hw hc hr
    | aField sync =>
      rw [exec_parse_aField hf hd] at h
      obtain ⟨-, e⟩ | ⟨a, -, ha, hcrc, e⟩ | ⟨a, -, ha, hcrc, e⟩ := parseAField_cases s <;> rw [e] at h <;> cases h
      · exact .waited (by simp [hd])
      · exact .dropped sync a hd ha hcrc
      · exact .accepted sync a hd ha hcrc
    | bField header tail len =>
      rw [exec_parse_bField hf hd] at h
      obtain ⟨-, e⟩ | ⟨rfl, e⟩ | ⟨bits, hz, -, hb, e⟩ := parseBField_cases header tail len s <;> rw [e] at h <;> cases h
      · exact .waited (by simp [hd])
      · exact .completedEmpty header tail hd
      · exact .completed header tail len bits hd hz hb

/-- What a PARSE that answers `MoreData` does: a scan without a match moves the cursor, an arm that waits does not. -/
theorem Parsed.of_moreData {s t : State} (h : Parsed s t) (hf : s.fault = none) (hmore : t.lastIsMoreData = true) :
    (s.dstate = .newMessage ∧ (∀ p, s.cur ≤ p → p + 64 ≤ storedBits s.buf → Rejected s.buf p) ∧
      t = (s.setCur (s.cur + (available s - 63))).answer prMoreData) ∨
    (s.dstate ≠ .newMessage ∧ t = s.answer prMoreData) := by
  cases h with
  | faulted c hc => exact absurd (hf.symm.trans hc) (by simp)
  | exhausted hd hr => exact .inl ⟨hd, hr, rfl⟩
  | waited hd => exact .inr ⟨hd, rfl⟩
  | matched | dropped | accepted | completedEmpty | completed =>
    simp [isMoreData, prPartial, prCrcError, prFull] at hmore

/-! ## The sync patterns of a window (R152) -/

theorem classifySync_eq_none_iff {w : Window} :
    classifySync w = none ↔ w.extractLsb' 0 24 ≠ Config.fpSync ∧ w.extractLsb' 0 24 ≠ Config.ppSync := by
  unfold classifySync
  split
  · simp_all
  · split <;> simp_all

theorem classifySync_of_fixed {w : Window} (h : w.extractLsb' 0 24 = Config.fpSync) : classifySync w = some .fixed :=
  if_pos h

theorem classifySync_of_portable {w : Window} (h : w.extractLsb' 0 24 = Config.ppSync) :
    classifySync w = some .portable := by
  rw [classifySync, if_neg (by rw [h]; decide), if_pos h]

/-- Before a stored window every window is stored, so one is rejected as soon as it matches no pattern. -/
theorem rejected_of_before_window {m : Memory} {c p : Nat} {w : Window} (hw : windowAt m p = some w)
    (hn : ∀ q v, c ≤ q → q < p → windowAt m q = some v → classifySync v = none) :
    ∀ q, c ≤ q → q < p → Rejected m q := by
  intro q hq hlt
  have hle := windowAt_le hw
  obtain ⟨v, hv⟩ := windowAt_of_le (m := m) (pos := q) (by omega)
  exact ⟨v, hv, hn q v hq hlt hv⟩

/-! ## The obligations -/

/-- Settles O43: every stored window is rejected, and the scan then ends at the first window that is not stored. -/
theorem scanWithoutMatchConsumes : Obligations.ScanWithoutMatchConsumes := by
  intro s hf hd hn
  rw [exec_parse_of_no_match hf hd fun p hp hle =>
    have ⟨w, hw⟩ := windowAt_of_le hle
    ⟨w, hw, classifySync_eq_none_iff.mpr (hn p w hp hw)⟩]
  split
  · next hlt => rw [show s.cur + (available s - 63) = s.cur by omega, State.setCur_self]
  · next hge =>
    have hcur : s.cur + (available s - 63) = 8 * s.buf.length - 63 := by
      simp only [available, storedBits] at hge ⊢
      omega
    rw [hcur]

/-- Settles O44: the window at `p` classifies as its pattern's kind, and the windows before it are rejected. -/
theorem scanStopsAtTheFirstMatch : Obligations.ScanStopsAtTheFirstMatch := by
  intro s p w kind hf hd hp hw hkind hn
  have hc : classifySync w = some kind := by
    obtain ⟨rfl, h⟩ | ⟨rfl, h⟩ := hkind
    · exact classifySync_of_fixed h
    · exact classifySync_of_portable h
  exact exec_parse_of_first_match hf hd hp hw hc (rejected_of_before_window hw fun q v hq hlt hv =>
    classifySync_eq_none_iff.mpr (hn q v hq hlt hv))

/-- Settles O45: the stored A-field is dropped. -/
theorem crcFailureDropsTheCandidate : Obligations.CrcFailureDropsTheCandidate :=
  fun _ _ _ hf hd ha hcrc => exec_parse_of_crc_failure hf hd ha hcrc

/-- Settles O46: the recorded length is the one of the header's class. -/
theorem validAFieldIsRecorded : Obligations.ValidAFieldIsRecorded := by
  intro s sync a hf hd ha hcrc
  rw [exec_parse_of_valid_aField hf hd ha hcrc, lengthOfEachSizeClass, headerOf_eq]
  rfl

/-- Settles O47: by what is available, and by whether the length is 0. -/
theorem bFieldCompletesWithItsLength : Obligations.BFieldCompletesWithItsLength := by
  intro s header tail len hf hd
  refine ⟨exec_parse_of_short_bField hf hd, ?_, fun hz hle => ?_⟩
  · rintro rfl
    exact exec_parse_of_no_payload hf hd
  · obtain ⟨bits, hb⟩ := memRead_of_le hle
    exact ⟨bits, memRead_length hb, fun k hk => memRead_getElem? hb hk, exec_parse_of_payload hf hd hz hb⟩

/-- Settles O42: NewMessage has no window to examine and AField none to read; BField completes with or without a payload. -/
theorem parseWithFewerThan64Bits : Obligations.ParseWithFewerThan64Bits := by
  refine ⟨fun s hf hlt hd => ?_, fun s header tail len hf hd hle _ => ?_⟩
  · obtain hd | ⟨sync, hd⟩ := hd
    · rw [exec_parse_of_no_match hf hd fun p hp hle => absurd hlt (by rw [available]; omega),
        show s.cur + (available s - 63) = s.cur by omega, State.setCur_self]
    · exact exec_parse_of_short_aField hf hd hlt
  · obtain ⟨hlt, -⟩ | ⟨rfl, -⟩ | ⟨bits, hz, -, hb, -⟩ := parseBField_cases header tail len s
    · exact absurd hle (Nat.not_le.mpr hlt)
    · exact ⟨_, _, exec_parse_of_no_payload hf hd, rfl⟩
    · exact ⟨_, _, exec_parse_of_payload hf hd hz hb, rfl⟩

/-- Settles O49: of the next states of `Parsed` two answer `MoreData`. -/
theorem moreDataChangesOnlyTheCursor : Obligations.MoreDataChangesOnlyTheCursor := by
  intro s t hf h hmore
  obtain ⟨hd, -, rfl⟩ | ⟨-, rfl⟩ := (exec_parse_parsed h).of_moreData hf hmore
  · exact ⟨rfl, fun hne => absurd hd hne⟩
  · exact ⟨rfl, fun _ => rfl⟩

/-- Settles O50: each next state of `Parsed` keeps the decoder state or takes one edge from it. -/
theorem parseMakesAtMostOneTransition : Obligations.ParseMakesAtMostOneTransition := by
  intro s t h hne
  cases exec_parse_parsed h with
  | faulted | exhausted | waited => exact absurd rfl hne
  | matched p kind w hd hp hw hc hr => rw [hd]; exact ⟨_, rfl, hc⟩
  | dropped sync a hd ha hcrc => rw [hd]; exact .inl rfl
  | accepted sync a hd ha hcrc => rw [hd]; exact .inr ⟨_, _, rfl⟩
  | completedEmpty header tail hd => rw [hd]; rfl
  | completed header tail len bits hd hz hb => rw [hd]; rfl

theorem runInstrs_cons_of_next {i : Instr} {is : List Instr} {s t : State} (h : exec i s = .next t) :
    runInstrs (i :: is) s = runInstrs is t := by
  rw [runInstrs, h, andThen_next]

/-- Settles O51: the rules of the three decoder states one after the other. -/
theorem noSlotFrameCompletesWithoutWaiting : Obligations.NoSlotFrameCompletesWithoutWaiting := by
  intro s p w a hf hd hp hw hsome hn ha hcrc hcls
  obtain ⟨kind, hc⟩ := Option.isSome_iff_exists.mp hsome
  have hclass : (headerOf a).sizeClass = 0b111#3 := by rw [headerOf_eq]; exact hcls
  have hmatch := exec_parse_of_first_match hf hd hp hw hc (rejected_of_before_window hw hn)
  have haccept := exec_parse_of_valid_aField (s := ((s.setCur (p + 64)).setDstate (.aField ⟨kind, w⟩)).answer prPartial)
    hf rfl ha hcrc
  rw [hclass] at haccept
  calc runInstrs [.parse, .parse, .parse] s
      = runInstrs [.parse, .parse] _ := runInstrs_cons_of_next hmatch
    _ = runInstrs [.parse] _ := runInstrs_cons_of_next haccept
    _ = runInstrs [] _ := runInstrs_cons_of_next (exec_parse_of_no_payload (by exact hf) (by rfl))
    _ = _ := by simp [runInstrs, State.answer, State.setCur, State.setDstate, hd]

end Sys2Proof.Machine
end

section
/-! PROOFS. 42_frame_decoder.md R151 to R161 and R178: the rows of data patterns as the moves PARSE makes on those
patterns, and what PARSE and these moves leave unchanged. -/

namespace Sys2Proof.Machine

/-! ## The sync rows (R151 to R153) -/

/-- The row a window decodes to records that window with its kind. -/
theorem decodeWindow_ok {w : Window} {i : Instr} (h : decodeWindow w = .ok i) :
    ∃ kind, classifySync w = some kind ∧ ∀ s, exec i s = prologue s (syncFound kind w) := by
  unfold decodeWindow at h
  split at h <;> cases h
  case h_1 hc =>
    refine ⟨.fixed, hc, fun s => ?_⟩
    rw [exec_fpSync, ← classifySync_eq_fixed hc, lead_append_pattern]
  case h_2 hc =>
    refine ⟨.portable, hc, fun s => ?_⟩
    rw [exec_ppSync, ← classifySync_eq_portable hc, lead_append_pattern]

theorem classifySync_of_decodeWindow_error {w : Window} {e : DecodeError} (h : decodeWindow w = .error e) :
    classifySync w = none := by
  unfold decodeWindow at h
  split at h
  · cases h
  · cases h
  · assumption

/-- Settles O11: both sides are the move of the first match. -/
theorem syncMatchRunsThePatternRow : Obligations.SyncMatchRunsThePatternRow := by
  intro s p w i hf hd hp hw hi hn
  obtain ⟨kind, hc, hrow⟩ := decodeWindow_ok hi
  have hr : ∀ q, s.cur ≤ q → q < p → Rejected s.buf q := fun q hq hlt =>
    have ⟨v, hv, he⟩ := hn q hq hlt
    ⟨v, hv, classifySync_of_decodeWindow_error he⟩
  have ha : 64 ≤ available (s.setCur p) := available_of_windowAt_cur (s := s.setCur p) hw
  rw [exec_parse_of_first_match hf hd hp hw hc hr, hrow,
    prologue_of_no_fault (s := s.setCur p) hf, syncFound_eq ha]
  rfl

/-- Settles O33: behind the prologue each row is the sync match of its kind. -/
theorem syncRowsComplete : Obligations.SyncRowsComplete := by
  intro s lead hf ha
  rw [exec_fpSync, exec_ppSync, prologue_of_no_fault hf, prologue_of_no_fault hf, syncFound_eq ha, syncFound_eq ha]
  exact ⟨rfl, rfl⟩

/-! ## The header rows (R158 to R161) -/

/-- A header row accepts the A-field with its header. -/
theorem exec_headerRow_eq_acceptAField (tailId : BitVec 3) (q1 : BitVec 1) (cls : BitVec 3) (q2 : BitVec 1) (s : State) :
    exec (headerRow tailId q1 cls q2) s =
      prologue s (acceptAField { tailId := tailId, q1 := q1, sizeClass := cls, q2 := q2 }) := by
  obtain rfl | rfl | rfl | rfl | rfl | rfl | rfl | rfl := sizeClass_cases cls <;> rfl

theorem exec_decodeHeader (h : Byte) (s : State) :
    exec (decodeHeader h) s = prologue s (acceptAField (headerOfByte h)) := by
  rw [decodeHeader_eq_headerRow, exec_headerRow_eq_acceptAField]
  rfl

/-- Settles O12: both sides accept the A-field with the header of its low byte. -/
theorem validAFieldRunsTheHeaderRow : Obligations.ValidAFieldRunsTheHeaderRow := by
  intro s sync a i hf hd ha hcrc hi
  cases hi
  rw [exec_parse_of_crc_valid hf hd ha hcrc, exec_decodeHeader, prologue_of_no_fault hf, headerOf]

theorem exec_headerRow_of_window {s : State} {a : Window} (hf : s.fault = none) (ha : windowAt s.buf s.cur = some a)
    (tailId : BitVec 3) (q1 : BitVec 1) (cls : BitVec 3) (q2 : BitVec 1) :
    exec (headerRow tailId q1 cls q2) s = .next (((s.setCur (s.cur + 64)).setDstate
      (.bField { tailId := tailId, q1 := q1, sizeClass := cls, q2 := q2 } (tailOf a) (bLen cls))).answer prPartial) := by
  rw [exec_headerRow_eq_acceptAField, prologue_of_no_fault hf, acceptAField_eq ha (available_of_windowAt_cur ha)]

/-- Settles O34: each listed row is the header row of its class, and each listed length that of the class. -/
theorem headerRowsComplete : Obligations.HeaderRowsComplete := by
  intro s a tailId q1 q2 hf ha i cls len hrow
  have hclass : i = headerRow tailId q1 cls q2 ∧ len = bLen cls := by
    obtain h | h | h | h | h | h | h | h := hrow <;> cases h <;> exact ⟨rfl, rfl⟩
  obtain ⟨rfl, rfl⟩ := hclass
  exact exec_headerRow_of_window hf ha tailId q1 cls q2

/-! ## What PARSE and these rows leave unchanged (R166, R178) -/

/-- Only a command other than PARSE records a fault. -/
theorem Moved.fault_eq {i : Instr} {s t : State} (h : Moved i s t) (hi : i = .parse ∨ encodeCommand i = none) :
    t.fault = s.fault := by
  cases h with
  | faulted c hf hne =>
    obtain ⟨-, hparse, -, hcommand⟩ := hne
    exact absurd hi (by simp [hparse, hcommand])
  | answered | reset | extended | advanced | decoded => rfl

/-- Settles O31: neither PARSE nor a row of data patterns is a RESET or an EXTEND, and neither records a fault. -/
theorem frameOfDecoderMoves : Obligations.FrameOfDecoderMoves := by
  intro i s t hi h
  have hmoved := exec_moved h
  have hbuf : t.buf = s.buf := hmoved.buf_eq
    (by rintro rfl; simp [encodeCommand, encode, commandOf] at hi)
    (by rintro b rfl; simp [encodeCommand, encode, commandOf] at hi)
  exact ⟨fun a => by rw [hbuf], by rw [hbuf], hmoved.fault_eq hi, hmoved.params_eq, hmoved.port_eq⟩

/-- Settles O48: each arm of PARSE answers, and PARSE records no fault. -/
theorem parseNeverFaults : Obligations.ParseNeverFaults := by
  intro s
  obtain ⟨t, h⟩ := exec_parse_isNext s
  exact ⟨t, h, (exec_moved h).fault_eq (.inl rfl)⟩

end Sys2Proof.Machine
end

section
/-! PROOFS. 42_frame_decoder.md R170 and R177: a scan goes on where it stopped, and where the fields of a packet stand in
the stream. -/

namespace Sys2Proof.Machine

/-! ## Resuming a scan (R170) -/

/-- A PARSE in NewMessage does not depend on rejected windows before its cursor. -/
theorem exec_parse_skips_rejected {s t : State} (hfs : s.fault = none) (hft : t.fault = none)
    (hds : s.dstate = .newMessage) (hdt : t.dstate = .newMessage) (hbuf : t.buf = s.buf) (hcur : s.cur ≤ t.cur)
    (hr : ∀ q, s.cur ≤ q → q < t.cur → Rejected s.buf q) :
    ∃ u v, exec .parse t = .next u ∧ exec .parse s = .next v ∧
      u.buf = v.buf ∧ u.cur = v.cur ∧ u.dstate = v.dstate ∧ u.responses.getLast? = v.responses.getLast? := by
  obtain ⟨hn, e⟩ | ⟨p, kind, w, hp, hw, hc, hn, e⟩ := parseNewMessage_cases s
  · have ht := exec_parse_of_no_match hft hdt (by rw [hbuf]; exact fun p hp => hn p (hcur.trans hp))
    refine ⟨_, _, ht, (exec_parse_newMessage hfs hds).trans e, hbuf, ?_, hdt.trans hds.symm, by simp⟩
    have hstop : t.cur = s.cur ∨ t.cur + 63 ≤ storedBits s.buf := by
      obtain heq | hlt := Nat.eq_or_lt_of_le hcur
      · exact .inl heq.symm
      · obtain ⟨w, hw, -⟩ := hr (t.cur - 1) (by omega) (by omega)
        have := windowAt_le hw
        exact .inr (by omega)
    simp only [State.answer_cur, State.setCur_cur, available, hbuf]
    omega
  · have hle : t.cur ≤ p := by
      by_contra hlt
      obtain ⟨v, hv, hcv⟩ := hr p hp (by omega)
      simp_all
    have ht := exec_parse_of_first_match hft hdt hle (hbuf ▸ hw) hc
      (by rw [hbuf]; exact fun q hq => hn q (hcur.trans hq))
    exact ⟨_, _, ht, (exec_parse_newMessage hfs hds).trans e, hbuf, rfl, rfl, by simp⟩

/-- Settles O53: the windows the first scan rejected are rejected in the extended stream too. -/
theorem scanResumesWhereItStopped : Obligations.ScanResumesWhereItStopped := by
  intro s bytes t hf hcap hd h hmore
  obtain ⟨-, hr, rfl⟩ | ⟨hne, -⟩ := (exec_parse_parsed h).of_moreData hf hmore
  · rw [extendAll_of_unbounded bytes hf hcap, extendAll_of_unbounded bytes (by exact hf) (by exact hcap), andThen_next,
      andThen_next]
    refine exec_parse_skips_rejected hf hf hd hd rfl (Nat.le_add_right _ _) fun q hq hlt => ?_
    simp only [State.answer_cur, State.setCur_cur, available] at hq hlt
    exact (hr q hq (by omega)).append
  · exact absurd hd hne

/-! ## Fields of a window (R177) -/

/-- The `n` bits from bit `i` of a stored window on are a field of it. -/
theorem memRead_of_windowAt {m : Memory} {pos : Nat} {w : Window} (hw : windowAt m pos = some w) {i n : Nat}
    (h : i + n ≤ 64) : ∃ bits, memRead m (pos + i) n = some bits ∧ uint bits = (w.extractLsb' (64 - i - n) n).toNat := by
  have hle := windowAt_le hw
  obtain ⟨bits, hb⟩ := memRead_of_le (m := m) (pos := pos + i) (n := n) (by omega)
  have hfield : BitVec.ofNat n (uint bits) = w.extractLsb' (64 - i - n) n := by
    refine BitVec.eq_of_getMsbD_eq fun j hj => Option.some.inj ?_
    rw [← streamBit_of_memRead hb hj, Nat.add_assoc, streamBit_of_windowAt hw (by omega), BitVec.getMsbD_extractLsb',
      show 64 - (64 - i - n + n - j) = i + j by omega]
    simp [hj, show 64 - i - n + n - j ≤ 64 by omega]
  refine ⟨bits, hb, ?_⟩
  rw [← hfield, BitVec.toNat_ofNat, Nat.mod_eq_of_lt (memRead_length hb ▸ uint_lt bits)]

theorem tailBits_tailOf (a : Window) : tailBits (tailOf a) = a.extractLsb' 8 40 := by
  have h₁ : a.extractLsb' 40 8 ++ a.extractLsb' 32 8 = a.extractLsb' 32 16 :=
    BitVec.extractLsb'_append_extractLsb'_eq_extractLsb' rfl
  have h₂ : a.extractLsb' 32 16 ++ a.extractLsb' 24 8 = a.extractLsb' 24 24 :=
    BitVec.extractLsb'_append_extractLsb'_eq_extractLsb' rfl
  have h₃ : a.extractLsb' 24 24 ++ a.extractLsb' 16 8 = a.extractLsb' 16 32 :=
    BitVec.extractLsb'_append_extractLsb'_eq_extractLsb' rfl
  have h₄ : a.extractLsb' 16 32 ++ a.extractLsb' 8 8 = a.extractLsb' 8 40 :=
    BitVec.extractLsb'_append_extractLsb'_eq_extractLsb' rfl
  rw [← h₄, ← h₃, ← h₂, ← h₁]
  rfl

theorem byteOfHeader_headerOf (a : Window) : byteOfHeader (headerOf a) = a.extractLsb' 0 8 := headerByte_fields _

/-! ## The three PARSE commands of a frame -/

theorem Parsed.window_of_aField {s t : State} {sync : SyncWord} (h : Parsed s t) (hs : s.dstate = .newMessage)
    (ht : t.dstate = .aField sync) :
    t.buf = s.buf ∧ ∃ p, t.cur = p + 64 ∧ windowAt s.buf p = some sync.raw ∧ classifySync sync.raw = some sync.kind := by
  cases h with
  | matched p kind w hd hp hw hc hr => cases ht; exact ⟨rfl, p, rfl, hw, hc⟩
  | faulted | exhausted | waited => exact absurd (hs.symm.trans ht) (by simp)
  | dropped | accepted | completedEmpty | completed => simp at ht

theorem Parsed.window_of_bField {s t : State} {sync : SyncWord} {header : MACHeader} {tail : Tail} {len : BitVec 7}
    (h : Parsed s t) (hs : s.dstate = .aField sync) (ht : t.dstate = .bField header tail len) :
    t.buf = s.buf ∧ t.cur = s.cur + 64 ∧ ∃ a, windowAt s.buf s.cur = some a ∧ header = headerOf a ∧ tail = tailOf a ∧
      len = bLen header.sizeClass := by
  cases h with
  | accepted sync' a hd ha hcrc => cases ht; exact ⟨rfl, rfl, a, ha, rfl, rfl, rfl⟩
  | faulted | exhausted | waited => exact absurd (hs.symm.trans ht) (by simp)
  | matched | dropped | completedEmpty | completed => simp at ht

theorem Parsed.packet_of_full {s t : State} {pkt : MACPacket} (h : Parsed s t)
    (hr : t.responses = s.responses ++ [prFull pkt]) :
    ∃ len, s.dstate = .bField pkt.header pkt.tail len ∧
      (∀ bits, pkt.payload = some bits → memRead s.buf s.cur len.toNat = some bits) ∧
      (pkt.payload = none ↔ len = 0#7) := by
  cases h with
  | completedEmpty header tail hd =>
    simp only [State.answer_responses, State.setDstate_responses, List.append_cancel_left_eq] at hr
    cases hr
    exact ⟨_, hd, by simp, by simp⟩
  | completed header tail len bits hd hz hb =>
    simp only [State.answer_responses, State.setDstate_responses, State.setCur_responses,
      List.append_cancel_left_eq] at hr
    cases hr
    exact ⟨_, hd, fun bits' h => Option.some.inj h ▸ hb, by simp [hz]⟩
  | faulted | exhausted | matched | waited | dropped | accepted =>
    simp [prMoreData, prPartial, prCrcError, prFull] at hr

/-- Settles O52: the sync window is stored at `p`, the A-field at `p + 64` and the payload at `p + 128`, and every field
is a field of one of the two windows. -/
theorem packetFieldsAtFixedOffsets : Obligations.PacketFieldsAtFixedOffsets := by
  intro s p kind w t₁ t₂ t₃ pkt hf hd h₁ hd₁ hcur₁ h₂ h₃ hfull
  obtain ⟨len, hd₂, hpayload, hnone⟩ := (exec_parse_parsed h₃).packet_of_full hfull
  obtain ⟨hbuf₁, q, hq, hw, hc⟩ := (exec_parse_parsed h₁).window_of_aField hd hd₁
  obtain ⟨hbuf₂, hcur₂, a, ha, hheader, htail, rfl⟩ := (exec_parse_parsed h₂).window_of_bField hd₁ hd₂
  obtain rfl : q = p := by omega
  rw [hbuf₁, hcur₁] at ha
  rw [hbuf₂, hbuf₁, hcur₂, hcur₁] at hpayload
  obtain ⟨sync, hsync, hsyncNum⟩ := memRead_of_windowAt hw (i := 40) (n := 24) (by decide)
  obtain ⟨tail, htailRead, htailNum⟩ := memRead_of_windowAt ha (i := 16) (n := 40) (by decide)
  obtain ⟨header, hheaderRead, hheaderNum⟩ := memRead_of_windowAt ha (i := 56) (n := 8) (by decide)
  refine ⟨sync, tail, header, hsync, ?_, htailRead, ?_, hheaderRead, ?_, hpayload, hnone⟩
  · rw [hsyncNum]
    cases kind with
    | fixed => exact congrArg BitVec.toNat (classifySync_eq_fixed hc)
    | portable => exact congrArg BitVec.toNat (classifySync_eq_portable hc)
  · rw [htailNum, htail, tailBits_tailOf]
  · rw [hheaderNum, hheader, byteOfHeader_headerOf]

end Sys2Proof.Machine
end

section
/-! PROOFS. 43_control.md R190 and R191: RESET and STATUS, each with its command word and its effect, and what RESET leaves
unchanged. -/

namespace Sys2Proof.Machine

/-! ## RESET -/

/-- What RESET can do: answer `Faulted` on a faulted block, or empty the stream and start over. -/
theorem exec_reset_next {s t : State} (h : exec .reset s = .next t) :
    (∃ c, s.fault = some c ∧ t = s.answer (.faulted c)) ∨
    (s.fault = none ∧ t = (((s.setBuf []).setCur 0).setDstate .newMessage).answer .ok) := by
  rw [exec_reset] at h
  obtain h | ⟨hf, h⟩ := prologue_next h
  · exact .inl h
  · cases h
    exact .inr ⟨hf, rfl⟩

/-- Settles O17: the reset state has already the fields that RESET writes, so there its effect is the answer alone. -/
theorem resetCommandRule : Obligations.ResetCommandRule :=
  ⟨decode_word (op := 0x1#4) (arg := 0#12) rfl (by decide) rfl,
    fun _ hf => ⟨_, exec_reset_of_no_fault hf, rfl, rfl, rfl, hf, rfl, rfl, rfl⟩,
    exec_reset_of_no_fault (s := State.reset) rfl,
    fun _ _ hf => exec_of_fault hf⟩

/-- Settles O30: RESET writes the stream, the cursor and the decoder state, and on a faulted block not even those. -/
theorem frameOfReset : Obligations.FrameOfReset := by
  intro s t h
  obtain ⟨c, -, rfl⟩ | ⟨hf, rfl⟩ := exec_reset_next h
  · exact ⟨rfl, rfl, rfl, fun _ => ⟨fun _ => rfl, rfl, rfl⟩⟩
  · exact ⟨rfl, rfl, rfl, fun hfaulted => absurd hf hfaulted⟩

/-! ## STATUS -/

theorem exec_status_of_no_fault {s : State} (hf : s.fault = none) :
    exec .status s = .next (s.answer (.status (statusOf s))) := by
  rw [exec_status, prologue_of_no_fault hf, respond_eq]

/-- Settles O18: the tag and the fields reported are those of the variant the decoder state is in. -/
theorem statusCommandRule : Obligations.StatusCommandRule := by
  refine ⟨decode_word (op := 0x4#4) (arg := 0#12) rfl (by decide) rfl, fun s hf => ?_⟩
  rw [exec_status_of_no_fault hf, statusOf]
  cases s.dstate with
  | newMessage => rfl
  | aField sync => rfl
  | bField header tail length => rfl

end Sys2Proof.Machine
end

section
/-! PROOFS. 60_exceptions.md R201 to R206, R212 and R214: what a step runs, that a recorded fault is terminal, and the fault
each instruction raises, given as a function of the instruction and the state. -/

namespace Sys2Proof.Machine

/-! ## What a step runs (R212, R214) -/

/-- Settles O8: the step takes the command off the port and runs its row. -/
theorem stepRunsTheDecodedCommand : Obligations.StepRunsTheDecodedCommand :=
  fun _ _ _ _ hp hd => step_of_decode_ok hp hd

/-- Settles O9: an empty port gives no next command. -/
theorem idleStepHoldsTheState : Obligations.IdleStepHoldsTheState := fun _ hp => step_of_idle hp

/-! ## A recorded fault is terminal (R203) -/

/-- A word that is no command is answered like any other one. -/
theorem step_of_fault {s : State} {c : HostCommand} {rest : List HostCommand} {code : FaultCode}
    (hp : s.port = c :: rest) (hf : s.fault = some code) : step s = .next ((s.setPort rest).answer (.faulted code)) := by
  cases hd : decode (.command c) with
  | ok i => rw [step_of_decode_ok hp hd, exec_of_fault (s := s.setPort rest) hf]
  | error e => rw [step_of_decode_error hp hd, rejectCommand, prologue_of_fault (s := s.setPort rest) hf]

/-- Settles O13: every command begins with the prologue, which answers for a faulted block. -/
theorem faultedBlockIsTerminal : Obligations.FaultedBlockIsTerminal :=
  ⟨fun _ _ _ hf => exec_of_fault hf, fun _ _ _ _ hp hf => step_of_fault hp hf⟩

/-! ## What a faulting command writes (R202, R206) -/

/-- Of the moves of an instruction only `faulted` leaves a fault the block did not have. -/
theorem Moved.eq_of_fault_eq_some {i : Instr} {s t : State} {code : FaultCode} (h : Moved i s t) (hf : s.fault = none)
    (ht : t.fault = some code) : t = (s.setFault code).answer (.faulted code) := by
  cases h with
  | faulted c hnone hi =>
    cases ht
    rfl
  | answered | reset | extended | advanced | decoded => cases hf.symm.trans ht

/-- Settles O14: the next state is one of `Moved`. -/
theorem faultingCommandWritesOnlyTheFault : Obligations.FaultingCommandWritesOnlyTheFault :=
  fun _ _ _ _ hf h ht => (exec_moved h).eq_of_fault_eq_some hf ht

/-! ## The fault each instruction raises (R201, R205) -/

/-- The fault a test-port command raises, `raised` the one of its body: without the test port the command is illegal, and
this takes priority (R205). -/
def testPortFault (raised : Option FaultCode) (s : State) : Option FaultCode :=
  if s.params.testPort then raised else some .illegalCommand

/-- The fault an instruction raises on a block without a fault, none where it completes. -/
def raisedFault (i : Instr) (s : State) : Option FaultCode :=
  match i with
  | .reservedOp0 _ | .reservedOpsABEF _ _ | .reservedOpsCDEF _ _ => some .illegalCommand
  | .avail | .peek _ | .nextwin | .crc _ => testPortFault none s
  | .advance n => testPortFault (if available s < countOf n then some .cursorOverrun else none) s
  | .extend _ => if overflows s then some .bufferOverflow else none
  | .reset | .parse | .status | .fpSync _ | .ppSync _
  | .sizeClass000 _ _ _ | .sizeClass001 _ _ _ | .sizeClass010 _ _ _ | .sizeClass011 _ _ _
  | .sizeClass100 _ _ _ | .sizeClass101 _ _ _ | .sizeClass110 _ _ _ | .sizeClass111 _ _ _ => none

theorem testPortPrologue_fault_eq {s t : State} {body : State → Result} {raised : Option FaultCode} (hf : s.fault = none)
    (hbody : body s = .next t → t.fault = raised) (h : testPortPrologue s body = .next t) :
    t.fault = testPortFault raised s := by
  cases hp : s.params.testPort with
  | true =>
    rw [testPortPrologue_on hf hp] at h
    simpa [testPortFault, hp] using hbody h
  | false =>
    rw [testPortPrologue_off hf hp] at h
    cases h
    simp [testPortFault, hp]

theorem rejectCommand_fault_eq {s t : State} (hf : s.fault = none) (h : rejectCommand s = .next t) :
    t.fault = some .illegalCommand := by
  rw [rejectCommand_of_no_fault hf] at h
  cases h
  rfl

theorem exec_extend_fault_eq {b : Byte} {s t : State} (hf : s.fault = none) (h : exec (.extend b) s = .next t) :
    t.fault = raisedFault (.extend b) s := by
  cases ho : overflows s with
  | true =>
    rw [exec_extend_of_overflows hf ho] at h
    cases h
    simp [raisedFault, ho]
  | false =>
    rw [exec_extend_of_fits hf ho] at h
    cases h
    simp [raisedFault, ho, hf]

/-- An instruction records exactly the fault it raises. -/
theorem exec_fault_eq {i : Instr} {s t : State} (hf : s.fault = none) (h : exec i s = .next t) :
    t.fault = raisedFault i s := by
  cases i with
  | extend b => exact exec_extend_fault_eq hf h
  | reservedOp0 | reservedOpsABEF | reservedOpsCDEF => exact rejectCommand_fault_eq hf h
  | avail | crc =>
    refine testPortPrologue_fault_eq hf (fun hb => ?_) h
    cases hb
    exact hf
  | peek n =>
    refine testPortPrologue_fault_eq hf (fun hb => ?_) ((exec_peek n s).symm.trans h)
    obtain ⟨r, rfl, -⟩ := peek_rereads n s t hb
    exact hf
  | nextwin =>
    refine testPortPrologue_fault_eq hf (fun hb => ?_) ((exec_nextwin s).symm.trans h)
    split at hb
    · cases hb
      exact hf
    · obtain ⟨w, -, hb⟩ := windowThen_next hb
      cases hb
      exact hf
  | advance n =>
    refine testPortPrologue_fault_eq hf (fun hb => ?_) ((exec_advance n s).symm.trans h)
    split at hb <;> cases hb
    · rename_i hlt
      exact (if_pos hlt).symm
    · rename_i hle
      exact hf.trans (if_neg hle).symm
  | reset =>
    rw [exec_reset_of_no_fault hf] at h
    cases h
    exact hf
  | status =>
    rw [exec_status_of_no_fault hf] at h
    cases h
    exact hf
  | parse => exact ((exec_moved h).fault_eq (.inl rfl)).trans hf
  | _ => exact ((exec_moved h).fault_eq (.inr rfl)).trans hf

/-! ## Which instructions raise which fault -/

theorem testPortFault_eq_some_iff {raised : Option FaultCode} {s : State} {code : FaultCode} :
    testPortFault raised s = some code ↔
      (s.params.testPort = false ∧ code = .illegalCommand) ∨ (s.params.testPort = true ∧ raised = some code) := by
  cases hp : s.params.testPort <;> simp [testPortFault, hp, eq_comm]

theorem raisedFault_eq_illegalCommand_iff {i : Instr} {s : State} : raisedFault i s = some .illegalCommand ↔
    (∃ arg, i = .reservedOp0 arg) ∨ (∃ op arg, i = .reservedOpsABEF op arg) ∨ (∃ op arg, i = .reservedOpsCDEF op arg) ∨
    (s.params.testPort = false ∧
      (i = .avail ∨ (∃ n, i = .peek n) ∨ i = .nextwin ∨ (∃ n, i = .advance n) ∨ ∃ din, i = .crc din)) := by
  cases i with
  | avail | peek | nextwin | advance | crc => simp [raisedFault, testPortFault_eq_some_iff]
  | _ => simp [raisedFault]

theorem raisedFault_eq_cursorOverrun_iff {i : Instr} {s : State} : raisedFault i s = some .cursorOverrun ↔
    s.params.testPort = true ∧ ∃ n, i = .advance n ∧ available s < n.toNat := by
  cases i with
  | advance n =>
    have hbody : raisedFault (.advance n) s = some .cursorOverrun ↔
        s.params.testPort = true ∧ available s < countOf n := by simp [raisedFault, testPortFault_eq_some_iff]
    simpa [countOf] using hbody
  | avail | peek | nextwin | crc => simp [raisedFault, testPortFault_eq_some_iff]
  | _ => simp [raisedFault]

theorem raisedFault_eq_bufferOverflow_iff {i : Instr} {s : State} : raisedFault i s = some .bufferOverflow ↔
    ∃ b c, i = .extend b ∧ s.params.capacity = some c ∧ c < s.buf.length + 1 - s.cur / 8 := by
  cases i with
  | extend b =>
    have hraised : raisedFault (.extend b) s = some .bufferOverflow ↔ overflows s = true := by simp [raisedFault]
    rw [hraised, overflows_iff]
    exact ⟨fun ⟨c, hc⟩ => ⟨b, c, rfl, hc⟩, fun ⟨_, c, _, hc⟩ => ⟨c, hc⟩⟩
  | avail | peek | nextwin | advance | crc => simp [raisedFault, testPortFault_eq_some_iff]
  | _ => simp [raisedFault]

/-- Settles O15: the fault recorded is the one the instruction raises, and each fault has its own instructions. -/
theorem whichCommandsFault : Obligations.WhichCommandsFault := by
  intro i s t hf h
  rw [exec_fault_eq hf h]
  exact ⟨raisedFault_eq_illegalCommand_iff, raisedFault_eq_cursorOverrun_iff, raisedFault_eq_bufferOverflow_iff⟩

end Sys2Proof.Machine
end

section
/-! PROOFS. 42_frame_decoder.md R173: how the bytes are split into chunks does not matter. A block that is fed the
chunks one by one is held beside one that has the whole stream from the start: the second makes every move of the first
but the answer `MoreData`, which it passes over, and so a feed agrees with one DRAIN of the whole stream. -/

namespace Sys2Proof.Machine

/-! ## DRAIN by its PARSE commands (30_encoding.md R79) -/

/-- Past the results left, DRAIN does not depend on its bound. -/
theorem drainAtMost_eq_of_resultsLeft_lt {k j : Nat} {s : State} (hf : s.fault = none)
    (hk : resultsLeft s.dstate (available s) < k) (hj : resultsLeft s.dstate (available s) < j) :
    drainAtMost k s = drainAtMost j s := by
  induction k generalizing j s with
  | zero => exact absurd hk (Nat.not_lt_zero _)
  | succ k ih =>
    obtain ⟨j, rfl⟩ := Nat.exists_eq_add_one_of_ne_zero (Nat.ne_zero_of_lt hj)
    obtain ⟨u, hu, hfu, hprogress⟩ := exec_parse_progress hf
    rw [drainAtMost, drainAtMost, hu, andThen_next, andThen_next]
    cases hmore : u.lastIsMoreData with
    | true => rfl
    | false =>
      have hlt := hprogress.resolve_left (by simp [hmore])
      exact ih hfu (by omega) (by omega)

theorem resultsLeft_lt_drainBound (s : State) : resultsLeft s.dstate (available s) < drainBound s :=
  Nat.lt_succ_of_le (resultsLeft_le _ _)

section
variable {s u : State} (hu : exec .parse s = .next u)
include hu

theorem drain_of_moreData (hmore : u.lastIsMoreData = true) : drain s = .next u := by
  rw [drain, drainBound, drainAtMost, hu, andThen_next, if_pos hmore]

theorem resultsLeft_lt_of_result (hf : s.fault = none) (hmore : u.lastIsMoreData = false) :
    u.fault = none ∧ resultsLeft u.dstate (available u) < resultsLeft s.dstate (available s) := by
  obtain ⟨v, hv, hfv, hprogress⟩ := exec_parse_progress hf
  cases hu.symm.trans hv
  exact ⟨hfv, hprogress.resolve_left (by simp [hmore])⟩

theorem drain_of_result (hf : s.fault = none) (hmore : u.lastIsMoreData = false) : drain s = drain u := by
  obtain ⟨hfu, hlt⟩ := resultsLeft_lt_of_result hu hf hmore
  have hs := resultsLeft_lt_drainBound s
  calc drain s = drainAtMost (3 * (available s / 128) + 3) u := by
        rw [drain, drainBound, drainAtMost, hu, andThen_next, if_neg (by simp [hmore])]
    _ = drain u := drainAtMost_eq_of_resultsLeft_lt hfu (by rw [drainBound] at hs; omega) (resultsLeft_lt_drainBound u)

end

/-! ## Waiting for more bits -/

/-- How many bits a decoder state waits for (42_frame_decoder.md R151, R155, R162). -/
def bitsWanted (d : DecoderState) : Nat :=
  match d with
  | .newMessage => 64
  | .aField _ => 64
  | .bField _ _ len => len.toNat

/-- After `MoreData` the bits the decoder state waits for are not there. -/
theorem available_lt_of_moreData {s u : State} (hf : s.fault = none) (hu : exec .parse s = .next u)
    (hmore : u.lastIsMoreData = true) : available u < bitsWanted u.dstate := by
  cases hd : s.dstate with
  | newMessage =>
    rw [exec_parse_newMessage hf hd] at hu
    obtain ⟨-, e⟩ | ⟨p, kind, w, -, -, -, -, e⟩ := parseNewMessage_cases s <;> rw [e] at hu <;> cases hu
    · simp only [available_answer, available_setCur_add, State.answer_dstate, State.setCur_dstate, hd, bitsWanted]
      omega
    · simp [isMoreData, prPartial] at hmore
  | aField sync =>
    rw [exec_parse_aField hf hd] at hu
    obtain ⟨hlt, e⟩ | ⟨a, -, -, -, e⟩ | ⟨a, -, -, -, e⟩ := parseAField_cases s <;> rw [e] at hu <;> cases hu
    · simpa [hd, bitsWanted] using hlt
    · simp [isMoreData, prCrcError] at hmore
    · simp [isMoreData, prPartial] at hmore
  | bField header tail len =>
    rw [exec_parse_bField hf hd] at hu
    obtain ⟨hlt, e⟩ | ⟨-, e⟩ | ⟨bits, -, -, -, e⟩ := parseBField_cases header tail len s <;> rw [e] at hu <;> cases hu
    · simpa [hd, bitsWanted] using hlt
    · simp [isMoreData, prFull] at hmore
    · simp [isMoreData, prFull] at hmore

/-- Outside NewMessage a PARSE without the bits it waits for leaves all but the responses. -/
theorem exec_parse_of_lt_bitsWanted {s : State} (hf : s.fault = none) (hd : s.dstate ≠ .newMessage)
    (ha : available s < bitsWanted s.dstate) : exec .parse s = .next (s.answer prMoreData) := by
  cases hs : s.dstate with
  | newMessage => exact absurd hs hd
  | aField sync => exact exec_parse_of_short_aField hf hs (by simpa [hs, bitsWanted] using ha)
  | bField header tail len => exact exec_parse_of_short_bField hf hs (by simpa [hs, bitsWanted] using ha)

/-! ## The block fed in chunks beside the block with the whole stream -/

theorem events_answer (r : Response) (s : State) : (s.answer r).events = s.events ++ [r].filterMap frameEvent := by
  simp [State.events]

/-- `MoreData` shows no packet and no dropped candidate. -/
theorem events_answer_moreData (s : State) : (s.answer prMoreData).events = s.events := by
  simp [events_answer, frameEvent, prMoreData]

/-- `t` holds the stream `s` will hold once `more` has been appended. It is in the same decoder state with the same
events, and where it stands behind `s`, both are in NewMessage and only rejected windows lie between them. -/
structure ChunkSim (more : List Byte) (s t : State) : Prop where
  fault_left : s.fault = none
  fault_right : t.fault = none
  capacity : s.params.capacity = none
  buf : t.buf = s.buf ++ more
  dstate : t.dstate = s.dstate
  events : t.events = s.events
  cur_le : t.cur ≤ s.cur
  rejected : ∀ q, t.cur ≤ q → q < s.cur → Rejected t.buf q
  cur_eq : s.dstate ≠ .newMessage → t.cur = s.cur

/-- What R173 compares of two runs. -/
abbrev Agree (t u : State) : Prop := t.events = u.events ∧ t.buf = u.buf ∧ t.cur = u.cur ∧ t.dstate = u.dstate

namespace ChunkSim

variable {more : List Byte} {s t u : State}

/-- The same move of both blocks, to one cursor. -/
theorem moved (h : ChunkSim more s t) (c : Nat) (d : DecoderState) (r : Response) :
    ChunkSim more (((s.setCur c).setDstate d).answer r) (((t.setCur c).setDstate d).answer r) where
  fault_left := h.fault_left
  fault_right := h.fault_right
  capacity := h.capacity
  buf := h.buf
  dstate := rfl
  events := by rw [events_answer, events_answer]; exact congrArg (· ++ _) h.events
  cur_le := Nat.le_refl c
  rejected _ hq hlt := absurd hq (Nat.not_le.mpr hlt)
  cur_eq _ := rfl

/-- The chunked block receives the first of the bytes to come. -/
theorem extended {bytes : List Byte} (h : ChunkSim (bytes ++ more) s t) :
    ∃ u, extendAll bytes s = .next u ∧ ChunkSim more u t := by
  refine ⟨_, extendAll_of_unbounded bytes h.fault_left h.capacity, { h with buf := ?_, events := ?_ }⟩
  · simpa using h.buf
  · have hok : (List.replicate bytes.length Response.ok).filterMap frameEvent = [] :=
      List.filterMap_replicate_of_none rfl
    simpa [State.events, hok] using h.events

/-- A window of the chunked block is one of the whole stream. -/
theorem windowAt_eq {p : Nat} {w : Window} (h : ChunkSim more s t) (hw : windowAt s.buf p = some w) :
    windowAt t.buf p = some w := by
  rw [h.buf, windowAt_append (windowAt_le hw), hw]

theorem rejected_of_left {p : Nat} (h : ChunkSim more s t) (hr : ∀ q, s.cur ≤ q → q < p → Rejected s.buf q) :
    ∀ q, t.cur ≤ q → q < p → Rejected t.buf q := by
  intro q hq hlt
  obtain hbefore | hfrom := Nat.lt_or_ge q s.cur
  · exact h.rejected q hq hbefore
  · exact h.buf ▸ (hr q hfrom hlt).append

/-- Outside NewMessage the A-field of the chunked block is at the other block's cursor too. -/
theorem windowAt_cur_eq {a : Window} {sync : SyncWord} (h : ChunkSim more s t) (hd : s.dstate = .aField sync)
    (ha : windowAt s.buf s.cur = some a) : windowAt t.buf t.cur = some a := by
  rw [h.cur_eq (by simp [hd])]
  exact h.windowAt_eq ha

/-- A result other than `MoreData` does not depend on what follows the bytes it was read from: both blocks make the same
move. -/
theorem same_move (h : ChunkSim more s t) (hu : exec .parse s = .next u) (hmore : u.lastIsMoreData = false) :
    ∃ c d r, u = ((s.setCur c).setDstate d).answer r ∧
      exec .parse t = .next (((t.setCur c).setDstate d).answer r) := by
  have hf := h.fault_right
  cases exec_parse_parsed hu with
  | faulted c hc => exact absurd (h.fault_left.symm.trans hc) (by simp)
  | exhausted | waited => simp [isMoreData, prMoreData] at hmore
  | matched p kind w hd hp hw hc hr =>
    exact ⟨_, _, _, rfl, exec_parse_of_first_match hf (h.dstate.trans hd) (h.cur_le.trans hp) (h.windowAt_eq hw) hc
      (h.rejected_of_left hr)⟩
  | dropped sync a hd ha hcrc =>
    refine ⟨_, _, _, rfl, ?_⟩
    rw [← h.cur_eq (by simp [hd])]
    exact exec_parse_of_crc_failure hf (h.dstate.trans hd) (h.windowAt_cur_eq hd ha) hcrc
  | accepted sync a hd ha hcrc =>
    refine ⟨_, _, _, rfl, ?_⟩
    rw [← h.cur_eq (by simp [hd])]
    exact exec_parse_of_valid_aField hf (h.dstate.trans hd) (h.windowAt_cur_eq hd ha) hcrc
  | completedEmpty header tail hd =>
    refine ⟨s.cur, _, _, rfl, ?_⟩
    rw [← h.cur_eq (by simp [hd])]
    exact exec_parse_of_no_payload hf (h.dstate.trans hd)
  | completed header tail len bits hd hz hb =>
    refine ⟨_, _, _, rfl, ?_⟩
    have hcur := h.cur_eq (by simp [hd])
    rw [← hcur]
    exact exec_parse_of_payload hf (h.dstate.trans hd) hz
      (by rw [h.buf, hcur, memRead_append (memRead_le hb), hb])

/-- The chunked block alone answers `MoreData`: the windows its scan rejected now lie between the two. -/
theorem moreData (h : ChunkSim more s t) (hu : exec .parse s = .next u) (hmore : u.lastIsMoreData = true) :
    ChunkSim more u t := by
  obtain ⟨hd, hr, rfl⟩ | ⟨-, rfl⟩ := (exec_parse_parsed hu).of_moreData h.fault_left hmore
  · refine { h with events := ?_, cur_le := ?_, rejected := ?_, cur_eq := fun hne => absurd hd hne }
    · exact h.events.trans (events_answer_moreData _).symm
    · exact h.cur_le.trans (Nat.le_add_right _ _)
    · refine h.rejected_of_left fun q hq hlt => hr q hq ?_
      simp only [State.answer_cur, State.setCur_cur, available] at hlt
      omega
  · exact { h with events := h.events.trans (events_answer_moreData s).symm }

/-- The chunked block drains, while the other comes to where its own DRAIN goes on as before. -/
theorem drained (h : ChunkSim more s t) :
    ∃ s' t', drain s = .next s' ∧ available s' < bitsWanted s'.dstate ∧ ChunkSim more s' t' ∧ drain t = drain t' := by
  induction hn : resultsLeft s.dstate (available s) using Nat.strong_induction_on generalizing s t with
  | _ n ih =>
    obtain ⟨u, hu⟩ := exec_parse_isNext s
    cases hmore : u.lastIsMoreData with
    | true =>
      exact ⟨u, t, drain_of_moreData hu hmore, available_lt_of_moreData h.fault_left hu hmore, h.moreData hu hmore, rfl⟩
    | false =>
      obtain ⟨c, d, r, rfl, ht⟩ := h.same_move hu hmore
      obtain ⟨-, hlt⟩ := resultsLeft_lt_of_result hu h.fault_left hmore
      obtain ⟨s', t', hs', hwait, hsim, ht'⟩ := ih _ (hn ▸ hlt) (h.moved c d r) rfl
      rw [drain_of_result hu h.fault_left hmore, drain_of_result ht h.fault_right (by simpa using hmore)]
      exact ⟨s', t', hs', hwait, hsim, ht'⟩

/-- A cursor that has moved over a rejected window is at most 63 bits before the end of the stream. -/
theorem cur_eq_or_le (h : ChunkSim more s t) : s.cur = t.cur ∨ s.cur + 63 ≤ storedBits t.buf := by
  obtain heq | hlt := Nat.eq_or_lt_of_le h.cur_le
  · exact .inl heq.symm
  · obtain ⟨w, hw, -⟩ := h.rejected (s.cur - 1) (by omega) (by omega)
    have := windowAt_le hw
    exact .inr (by omega)

/-- When all bytes have come and the chunked block waits, one PARSE takes the other to its cursor. -/
theorem exec_parse_of_waiting (h : ChunkSim [] s t) (hwait : available s < bitsWanted s.dstate) :
    exec .parse t = .next ((t.setCur s.cur).answer prMoreData) := by
  have hf := h.fault_right
  have hbuf : t.buf = s.buf := by simpa using h.buf
  by_cases hd : s.dstate = .newMessage
  · have hcur := h.cur_le
    have hend := h.cur_eq_or_le
    simp only [hd, bitsWanted, available, ← hbuf] at hwait
    have hr : ∀ p, t.cur ≤ p → p + 64 ≤ storedBits t.buf → Rejected t.buf p := fun p hp hstored =>
      h.rejected p hp (by omega)
    have hstop : t.cur + (available t - 63) = s.cur := by
      rw [available]
      omega
    rw [exec_parse_of_no_match hf (h.dstate.trans hd) hr, hstop]
  · have hcur := h.cur_eq hd
    rw [← hcur]
    exact exec_parse_of_lt_bitsWanted hf (h.dstate ▸ hd) (by simpa only [h.dstate, available, hbuf, hcur] using hwait)

theorem agree_of_waiting (h : ChunkSim [] s t) (hwait : available s < bitsWanted s.dstate) :
    ∃ t', drain t = .next t' ∧ Agree s t' := by
  refine ⟨_, drain_of_moreData (h.exec_parse_of_waiting hwait) (lastIsMoreData_answer _ _), ?_, ?_, rfl, h.dstate.symm⟩
  · exact h.events.symm.trans (events_answer_moreData _).symm
  · simpa using h.buf.symm

/-- Feeding the chunks that are still to come agrees with one DRAIN of the whole stream. -/
theorem feed_agrees {chunks : List (List Byte)} (h : ChunkSim chunks.flatten s t)
    (hwait : chunks = [] → available s < bitsWanted s.dstate) :
    ∃ s' t', feed chunks s = .next s' ∧ drain t = .next t' ∧ Agree s' t' := by
  induction chunks generalizing s t with
  | nil =>
    obtain ⟨t', ht', hagree⟩ := h.agree_of_waiting (hwait rfl)
    exact ⟨s, t', rfl, ht', hagree⟩
  | cons bytes rest ih =>
    obtain ⟨s₁, hs₁, h₁⟩ := h.extended (bytes := bytes)
    obtain ⟨s₂, t₂, hs₂, hwait₂, h₂, ht₂⟩ := h₁.drained
    obtain ⟨s', t', hs', ht', hagree⟩ := ih h₂ fun _ => hwait₂
    exact ⟨s', t', by rw [feed, hs₁, andThen_next, hs₂, andThen_next, hs'], ht₂.trans ht', hagree⟩

end ChunkSim

/-! ## The obligation -/

/-- The consumer loop agrees with one DRAIN of the block that holds all the bytes. -/
theorem feed_agrees_drain {s : State} {chunks : List (List Byte)} (hf : s.fault = none)
    (hcap : s.params.capacity = none) (hne : chunks ≠ []) :
    ∃ s' t', feed chunks s = .next s' ∧ drain (s.setBuf (s.buf ++ chunks.flatten)) = .next t' ∧ Agree s' t' := by
  refine ChunkSim.feed_agrees (t := s.setBuf (s.buf ++ chunks.flatten)) ?_ fun hnil => absurd hnil hne
  exact {
    fault_left := hf
    fault_right := hf
    capacity := hcap
    buf := rfl
    dstate := rfl
    events := rfl
    cur_le := Nat.le_refl _
    rejected := fun _ hq hlt => absurd hq (Nat.not_le.mpr hlt)
    cur_eq := fun _ => rfl }

/-- Settles O55: both feeds agree with the one DRAIN of the whole stream, so with each other. -/
theorem chunkSplitIndependence : Obligations.ChunkSplitIndependence := by
  intro s chunks chunks' hf hcap hne hne' hflat
  obtain ⟨t, v, ht, hv, hevents, hbuf, hcur, hdstate⟩ := feed_agrees_drain hf hcap hne
  obtain ⟨u, v', hu, hv', hevents', hbuf', hcur', hdstate'⟩ := feed_agrees_drain hf hcap hne'
  obtain rfl : v = v' := by
    rw [← hflat, hv] at hv'
    cases hv'
    rfl
  exact ⟨t, u, ht, hu, hevents.trans hevents'.symm, hbuf.trans hbuf'.symm, hcur.trans hcur'.symm,
    hdstate.trans hdstate'.symm⟩

end Sys2Proof.Machine
end
